-- ==== Sys2Proof/Word.lean ====
section
/-! DEFINITION. The three word types of the hardware (spec/00_scope.md R10). -/

namespace Sys2Proof

/-- A byte, an unsigned integer in 0..255 (R10). -/
abbrev Byte := BitVec 8

/-- A lane, an unsigned integer in 0..2^64-1 (R10, R20). -/
abbrev Lane := BitVec 64

/-- A command word, 16 bits, handed to the engine as a number (R80). -/
abbrev CmdWord := BitVec 16

end Sys2Proof
end

