-- ==== Sys2Proof/Syntax.lean ====
section
/-! DEFINITION. The commands of the hardware, one constructor per row of spec/opcode_table.json
(spec/30_encoding.md R82). The only explicit operand is `ir`, the byte `cmd[7:0]` as it stands (R84). -/

namespace Sys2Proof

/-- A command (R82). `ir` is held as the field of the word holds it; that it lies in 0..23 is WellFormed's check. -/
inductive Instr where
  | theta
  | rhopi
  | chi
  | iota (ir : BitVec 8)
  | round (ir : BitVec 8)
  | keccakf
  | pad
  | init
  | xorin
  | absorbblk
  | absorb
  | squeeze
  | hash
deriving DecidableEq, Repr

end Sys2Proof
end

