-- ==== Sys2Proof/WellFormed.lean ====
section
/-! DEFINITION. Which terms of Instr are commands of the hardware (spec/30_encoding.md R81, R84, R87). -/

namespace Sys2Proof

/-- A round operand is legal when a round constant of that index exists: `ir` in 0..23 (R81, R87). -/
def roundOperandLegal (ir : BitVec 8) : Bool := decide (ir.toNat ≤ 23)

/-- Format N commands have no operand to check; format R commands need a legal round operand (R81). -/
def WellFormed : Instr → Bool
  | .theta => true
  | .rhopi => true
  | .chi => true
  | .iota ir => roundOperandLegal ir
  | .round ir => roundOperandLegal ir
  | .keccakf => true
  | .pad => true
  | .init => true
  | .xorin => true
  | .absorbblk => true
  | .absorb => true
  | .squeeze => true
  | .hash => true

end Sys2Proof
end

