-- ==== Sys2Proof/Decode.lean ====
section
/-! DEFINITION. The command word (spec/30_encoding.md R80 to R88): the decoder, total on all 65536 words, and the
encoder, both written from the layout of R81 and the opcode map of R82. -/

namespace Sys2Proof

/-- `OPC`, bits 15..8 (R81). -/
def opcField (w : CmdWord) : BitVec 8 := w.extractLsb' 8 8

/-- `ARG`, bits 7..0 (R81). -/
def argField (w : CmdWord) : BitVec 8 := w.extractLsb' 0 8

/-- Why a word spells no command (R85, R86): the two reasons decoding can give. -/
inductive DecodeError where
  /-- `OPC` is 0x00 or 0x0E..0xFF, or a format N word has `ARG` not 0. -/
  | illegalCommand
  /-- `IOTA` or `ROUND` with `ARG` in 24..255. -/
  | operandRange
deriving DecidableEq, Repr

/-- Format N: `ARG` must be 0x00 (R81, R85). -/
def formatN (w : CmdWord) (i : Instr) : Except DecodeError Instr :=
  if argField w = 0x00 then .ok i else .error .illegalCommand

/-- Format R: `ARG` is the round index and must be in 0..23 (R81, R85). -/
def formatR (w : CmdWord) (mk : BitVec 8 → Instr) : Except DecodeError Instr :=
  if (argField w).toNat ≤ 23 then .ok (mk (argField w)) else .error .operandRange

/-- The decoder (R85) over the opcode map (R82). -/
def decode (w : CmdWord) : Except DecodeError Instr :=
  match (opcField w).toNat with
  | 0x01 => formatN w .theta
  | 0x02 => formatN w .rhopi
  | 0x03 => formatN w .chi
  | 0x04 => formatR w .iota
  | 0x05 => formatR w .round
  | 0x06 => formatN w .keccakf
  | 0x07 => formatN w .pad
  | 0x08 => formatN w .init
  | 0x09 => formatN w .xorin
  | 0x0A => formatN w .absorbblk
  | 0x0B => formatN w .absorb
  | 0x0C => formatN w .squeeze
  | 0x0D => formatN w .hash
  | _ => .error .illegalCommand

/-- The opcode of a command (R82). -/
def opcodeOf : Instr → BitVec 8
  | .theta => 0x01
  | .rhopi => 0x02
  | .chi => 0x03
  | .iota _ => 0x04
  | .round _ => 0x05
  | .keccakf => 0x06
  | .pad => 0x07
  | .init => 0x08
  | .xorin => 0x09
  | .absorbblk => 0x0A
  | .absorb => 0x0B
  | .squeeze => 0x0C
  | .hash => 0x0D

/-- The `ARG` byte of a command: `ir` in format R, 0x00 in format N (R81, R84). -/
def argumentOf : Instr → BitVec 8
  | .theta => 0x00
  | .rhopi => 0x00
  | .chi => 0x00
  | .iota ir => ir
  | .round ir => ir
  | .keccakf => 0x00
  | .pad => 0x00
  | .init => 0x00
  | .xorin => 0x00
  | .absorbblk => 0x00
  | .absorb => 0x00
  | .squeeze => 0x00
  | .hash => 0x00

/-- The encoder: `OPC` above `ARG` (R81). -/
def encode (i : Instr) : CmdWord := opcodeOf i ++ argumentOf i

/-- The command word of an opcode-table row's bits: the low `nbits` of `w`, every bit above them 0. -/
def tableCmdWord (nbits w : Nat) : CmdWord := BitVec.ofNat 16 (w % 2 ^ nbits)

/-- The command the decoder reads from an opcode-table row's bits. A command is one 16-bit number (R80), so no byte
order is involved. -/
def decodeTableWord (nbits w : Nat) : Option Instr :=
  match decode (tableCmdWord nbits w) with
  | .ok i => some i
  | .error _ => none

end Sys2Proof
end

