-- ==== Sys2Proof/Config.lean ====
section
/-! DEFINITION. The fixed parameters of the hardware (spec/00_scope.md R8, R9). There is no configuration:
every one is hard-wired, except MAX_MSG_BYTES, which is OPEN (spec/92_eei_decisions.md D4) and therefore a field of
State that no step changes; its default stands here. The read-only tables RC and ROT are in Machine/Tables.lean. -/

namespace Sys2Proof.Config

/-- `RATE`, in bits (R8). -/
abbrev rate : Nat := 1088

/-- `RATE_BYTES`, the length of a block: 136 = 1088 / 8 (R8). -/
abbrev rateBytes : Nat := 136

/-- `NR`, the number of rounds (R8, R123). -/
abbrev rounds : Nat := 24

/-- `DIGEST_BYTES` (R8). -/
abbrev digestBytes : Nat := 32

/-- `SUFFIX_BYTE`, the first padding byte (R8, R141). -/
abbrev suffixByte : Byte := 0x06

/-- `FINAL_BIT_BYTE`, ORed into the last padding byte (R8, R141). -/
abbrev finalBitByte : Byte := 0x80

/-- The default of `MAX_MSG_BYTES`: unbounded (R8, D4). -/
abbrev maxMsgDefault : Option Nat := none

end Sys2Proof.Config
end

