-- ==== Sys2Proof/Machine/State.lean ====
section
/-! DEFINITION. The state of one instance of the hardware (spec/10_state.md R20 to R37), the host's moves
(spec/60_exceptions.md R197), the reasons a step can stop, and the state after reset (R37, R200). Plain data. -/

namespace Sys2Proof.Machine

/-- The lane register file `A`: 25 lanes, held by word index `w = x + 5*y` (R20, R21). -/
abbrev Lanes := Vector Lane 25

/-- One block of the padded message: 136 bytes (R28). -/
abbrev Block := Vector Byte 136

/-- The contents of the digest register `Z`: 32 bytes (R32). -/
abbrev Digest := Vector Byte 32

/-- The contents of a byte space, byte `i` at index `i`; an index at or above the length does not exist
(R30, R31, R61). -/
abbrev ByteSpace := List Byte

/-- One move of the world outside, made between commands (R197, R200). -/
inductive HostAct where
  /-- The host hands over one command word (R80). -/
  | command (word : CmdWord)
  /-- The host writes the whole of `MSG`, and with it `LEN` (R30, R36). -/
  | writeMessage (message : ByteSpace)
  /-- The host reads `Z[0..31]` (R32, R198). -/
  | readDigest
  /-- A hardware reset (R200). `message` is what `MSG` holds after it and `digestBits` what the register `Z` holds
  after it: the spec leaves both unspecified, so both are inputs and may be anything. -/
  | reset (message : ByteSpace) (digestBits : Digest)
deriving DecidableEq, Repr

/-- One instance of the hardware, its build parameter, and the host's side of it. -/
structure State where
  /-- `A`, the 25 lanes (R20). -/
  lanes : Lanes
  /-- `MSG`, with `LEN` its length (R30). -/
  msg : ByteSpace
  /-- `P`, the padded-message buffer (R31). -/
  p : ByteSpace
  /-- `ib`, the index of the next block of `P` (R28). -/
  ib : Nat
  /-- `Z`, the digest register (R32). -/
  z : Digest
  /-- `ZV`, digest valid (R33). -/
  zv : Bool
  /-- `MAX_MSG_BYTES`, fixed for a build; `none` is unbounded (R8, D4). No step changes it. DESIGN CHOICE: log entry 4. -/
  maxMsg : Option Nat
  /-- MODEL'S OWN: the moves of the host still to come, first move first. DESIGN CHOICE: log entry 1. -/
  host : List HostAct
  /-- MODEL'S OWN: what the host's last read of `Z` gave it, none before the first. DESIGN CHOICE: log entry 1. -/
  taken : Option Digest
deriving DecidableEq, Repr

/-- What stops a run because the spec gives the access no value. -/
inductive Fault where
  /-- Raised by the host's read of `Z` while `ZV = 0` (R33, R198): a fault of the reader, not of the hardware.
  Safe: nothing is proved through it. -/
  | digestNotValid
deriving DecidableEq, Repr

/-- Why a command is not performed (R181). The state is then the state before the command; safe: nothing is proved
through a refused command. -/
inductive Refusal where
  /-- Raised by exec's arm of a command that has no meaning yet. Safe. -/
  | notModelled (mnemonic : String)
  /-- Raised by decoding: `OPC` is 0x00 or 0x0E..0xFF, or a format N word has `ARG` not 0 (R86). Safe. -/
  | illegalCommand
  /-- Raised by decoding `IOTA` or `ROUND` with `ARG` in 24..255 (R86, R87), and by their meanings on a term that no
  word decodes to. Safe. -/
  | operandRange
  /-- Raised by `XORIN` and `ABSORBBLK` when there is no block `ib` (R152, R154). Safe. -/
  | noBlock
  /-- Raised by `PAD` and `HASH` in a build that bounds the message, when `LEN` is above the bound (R140, R170). Safe. -/
  | tooLong
deriving DecidableEq, Repr

/-- What every command answers. -/
abbrev Result := Host.Outcome State Fault Refusal

/-- All 25 lanes zero (R23, R150, R200). -/
def zeroLanes : Lanes := Vector.replicate 25 0x0000000000000000

/-- DESIGN CHOICE (log entry 3): the bits named for `Z` at reset, where the spec says "no value". They are behind the
`ZV = 0` guard of readDigest. -/
def resetDigest : Digest := Vector.replicate 32 0x00

def State.setLanes (s : State) (v : Lanes) : State := { s with lanes := v }
def State.setMsg (s : State) (v : ByteSpace) : State := { s with msg := v }
def State.setP (s : State) (v : ByteSpace) : State := { s with p := v }
def State.setIb (s : State) (v : Nat) : State := { s with ib := v }
def State.setZ (s : State) (v : Digest) : State := { s with z := v }
def State.setZv (s : State) (v : Bool) : State := { s with zv := v }
def State.setHost (s : State) (v : List HostAct) : State := { s with host := v }
def State.setTaken (s : State) (v : Option Digest) : State := { s with taken := v }

/-- The machine right after a hardware reset (R37, R200): lanes zero, `P` empty, `ib = 0`, `ZV = 0`. `MSG` (log entry 2)
and the bits of `Z` (log entry 3) are the model's named values; the build is the default one (log entry 4); the host has
made no move yet (log entry 1), so the engine waits for its first command (R200). -/
def State.reset : State where
  lanes := zeroLanes
  msg := []
  p := []
  ib := 0
  z := resetDigest
  zv := false
  maxMsg := Config.maxMsgDefault
  host := []
  taken := none

end Sys2Proof.Machine
end

