-- ==== Sys2Proof/Machine/Flags.lean ====
section
/-! DEFINITION. The one flag of the hardware, `ZV`, digest valid (spec/10_state.md R33). There are no condition codes: no
lane operation carries, overflows or sets a flag (R11, R125). -/

namespace Sys2Proof.Machine

/-- `ZV <- 0`, as `INIT` and reset do (R33, R150). -/
def clearDigestValid (s : State) : State := s.setZv false

/-- `ZV <- 1`, as `SQUEEZE` and `HASH` do (R33, R158). -/
def setDigestValid (s : State) : State := s.setZv true

end Sys2Proof.Machine
end

