-- ==== Sys2Proof/Machine/Tables.lean ====
section
/-! DEFINITION. The read-only constant tables (spec/10_state.md R24 to R26). No operation, host move or reset writes them
and every instance has the same contents, so they are constants and no fields of State. The spec marks their values
[from general knowledge, not in source] (93_implementation_defined.md G1, G2). -/

namespace Sys2Proof.Machine

/-- The table of round constants as R24 lays it out, in rows of two: row `i` holds `RC[i]` and `RC[i + 12]`. -/
def roundConstantRows : List (Lane × Lane) := [
  (0x0000000000000001, 0x000000008000808B),
  (0x0000000000008082, 0x800000000000008B),
  (0x800000000000808A, 0x8000000000008089),
  (0x8000000080008000, 0x8000000000008003),
  (0x000000000000808B, 0x8000000000008002),
  (0x0000000080000001, 0x8000000000000080),
  (0x8000000080008081, 0x000000000000800A),
  (0x8000000000008009, 0x800000008000000A),
  (0x000000000000008A, 0x8000000080008081),
  (0x0000000000000088, 0x8000000000008080),
  (0x0000000080008009, 0x0000000080000001),
  (0x000000008000000A, 0x8000000080008008)]

/-- `RC[ir]`, the round constants: the left column for `ir` in 0..11, the right one for 12..23 (R24). -/
def RC : Vector Lane 24 := ⟨(roundConstantRows.map (·.1) ++ roundConstantRows.map (·.2)).toArray, by rfl⟩

/-- The rows `y = 0..4` of the table of rotation offsets, column `x = 0..4` within a row (R25). -/
def rotTable : Vector (Fin 64) 25 := #v[
   0,  1, 62, 28, 27,
  36, 44,  6, 55, 20,
   3, 10, 43, 25, 39,
  41, 45, 15, 21,  8,
  18,  2, 61, 56, 14]

/-- `ROT[x,y]`, the rotation offset of the lane whose original coordinates are `(x, y)` (R25). -/
def ROT (x y : Fin 5) : Fin 64 := rotTable[x.val + 5 * y.val]

end Sys2Proof.Machine
end

