-- ==== Sys2Proof/Machine/Operands.lean ====
section
/-! DEFINITION. How commands reach their operands: lanes by coordinates (spec/00_scope.md R13), the rotation R11, the
bytes of a lane (R14, spec/20_memory.md R50 to R52), and the round operand (spec/30_encoding.md R84). -/

namespace Sys2Proof.Machine

/-- `rotl64(v, n)`, rotate left by `n` in 0..63, in the closed form of R11. -/
def rotl64 (v : Lane) (n : Fin 64) : Lane :=
  if n.val = 0 then v else (v <<< n.val) ||| (v >>> (64 - n.val))

/-- Reading `A[x,y]`, the lane of word index `x + 5*y` (R13, R21). -/
def laneAt (a : Lanes) (x y : Fin 5) : Lane := a[x.val + 5 * y.val]

/-- `A[x,y] <- v` (R13). -/
def setLane (a : Lanes) (x y : Fin 5) (v : Lane) : Lanes := a.set (x.val + 5 * y.val) v

/-- The column of word index `w`: `w mod 5` (R21). -/
def columnOf (w : Fin 25) : Fin 5 := ⟨w.val % 5, Nat.mod_lt _ (by decide)⟩

/-- The row of word index `w`: `w div 5` (R21). -/
def rowOf (w : Fin 25) : Fin 5 := ⟨w.val / 5, by have := w.isLt; omega⟩

/-- The lane matrix whose lane at `(x, y)` is `f x y`: all 25 lanes at once (R110), row `y` on line `y` as
the spec prints a state. -/
@[irreducible] def lanesOf (f : Fin 5 → Fin 5 → Lane) : Lanes := #v[
  f 0 0, f 1 0, f 2 0, f 3 0, f 4 0,
  f 0 1, f 1 1, f 2 1, f 3 1, f 4 1,
  f 0 2, f 1 2, f 2 2, f 3 2, f 4 2,
  f 0 3, f 1 3, f 2 3, f 3 3, f 4 3,
  f 0 4, f 1 4, f 2 4, f 3 4, f 4 4]

/-- The word index of byte `j` of a block: `j div 8` (R50). -/
def wordOfByte (j : Fin 136) : Fin 25 := ⟨j.val / 8, by have := j.isLt; omega⟩

/-- Byte `b` widened to a lane and placed at its position `j mod 8`: `zext_64(b) << (8 * (j mod 8))` (R50, R151). -/
def placeByte (b : Byte) (j : Nat) : Lane := b.setWidth 64 <<< (8 * (j % 8))

/-- Byte `k` of a lane, least significant first: `v[8k+7:8k]` (R14, R51). -/
def laneByte (v : Lane) (k : Nat) : Byte := v.extractLsb' (8 * k) 8

/-- The round index an `ir` operand names: none above 23, where no round constant exists (R84, R87). -/
def roundIndex (ir : BitVec 8) : Option (Fin 24) :=
  if h : ir.toNat < 24 then some ⟨ir.toNat, h⟩ else none

end Sys2Proof.Machine
end

