-- ==== Sys2Proof/Machine/Ops.lean ====
section
/-! DEFINITION. The shared operations over the byte spaces (spec/20_memory.md), refusing a command
(spec/60_exceptions.md R181, R184, R185), and the host's moves (R197, R200). The hardware takes no exception and returns
from none (R180, R185, R187): refuse is what it has in their place. -/

namespace Sys2Proof.Machine

/-- Reading one byte of a byte space; none where the space has no such byte (R57, R61). -/
def byteAt (sp : ByteSpace) (a : Nat) : Option Byte := sp[a]?

/-- A byte space as address and byte pairs, addresses rising from 0. -/
def Memory.cells (sp : ByteSpace) : List Host.Cell := (sp.zipIdx).map fun c => (c.2, c.1)

/-- The canonical form of address and byte pairs: addresses strictly rising. An unlisted address does not exist, so no
entry can equal what it reads as. -/
def Memory.wf : List Host.Cell → Bool
  | [] => true
  | [_] => true
  | c :: d :: rest => decide (c.1 < d.1) && Memory.wf (d :: rest)

/-- `MemRead(S, a, n)`: the `n` bytes from index `a` (R14); none where the space ends before them (R57). -/
def memRead (sp : ByteSpace) (a n : Nat) : Option (Vector Byte n) :=
  if h : a + n ≤ sp.length then
    some ⟨((sp.drop a).take n).toArray, by simp only [List.size_toArray, List.length_take, List.length_drop]; omega⟩
  else none

/-- `nblocks = len(P) div 136` (R28). -/
def nblocks (p : ByteSpace) : Nat := p.length / Config.rateBytes

/-- Block `k` of `P`, bytes `136*k .. 136*k + 135`; none when `k >= nblocks` (R28, R56, R152). -/
def blockAt (p : ByteSpace) (k : Nat) : Option Block :=
  if k < nblocks p then memRead p (Config.rateBytes * k) Config.rateBytes else none

/-- `MemWrite(Z, 0, 32, bs)` with `ZV <- 1` (R14, R158). -/
def writeDigest (s : State) (bs : Digest) : State := setDigestValid (s.setZ bs)

/-- A build with a finite `MAX_MSG_BYTES` does not accept a longer message (R140, D4). -/
def messageTooLong (s : State) : Bool :=
  match s.maxMsg with
  | none => false
  | some m => decide (m < s.msg.length)

/-- Refusing a command: it is not performed and its reason is reported to the host; the state is the state before it
(R15, R181, R185). -/
def refuse (r : Refusal) : Result := .refused r

/-- The reason reported for a word that spells no command (R86, R181). -/
def decodeRefusal : DecodeError → Refusal
  | .illegalCommand => .illegalCommand
  | .operandRange => .operandRange

/-- The next move of the host and the state with that move taken off; none when the host has no move left. -/
def nextMove (s : State) : Option (HostAct × State) :=
  match s.host with
  | [] => none
  | act :: rest => some (act, s.setHost rest)

/-- The host writes `MSG` and `LEN`; nothing else changes, `P` being a copy (R31, R36, R197). -/
def writeMessage (m : ByteSpace) (s : State) : Result := .next (s.setMsg m)

/-- The host reads `Z[0..31]`: its bytes while `ZV = 1`, a fault while `ZV = 0` (R33, R198). The read changes no state of
the hardware (R60). -/
def readDigest (s : State) : Result :=
  if s.zv then .next (s.setTaken (some s.z)) else .fault .digestNotValid

/-- A hardware reset (R37, R200): lanes zero, `P` empty, `ib = 0`, `ZV = 0`; `MSG` and the bits of `Z`, which the spec
leaves unspecified, are the event's own. It starts no operation. -/
def hardReset (m : ByteSpace) (digestBits : Digest) (s : State) : Result :=
  .next (clearDigestValid ((((s.setLanes zeroLanes).setMsg m).setP []).setIb 0 |>.setZ digestBits))

/-- The state the host finds after a refusal: the refused command is spent, all else is as before it, and the engine
accepts the next command as after any other (R181, R187). -/
def afterRefusal (s : State) : State := s.setHost s.host.tail

end Sys2Proof.Machine
end

