-- ==== Sys2Proof/Machine/Padding.lean ====
section
/-! DEFINITION. The padding family: PAD (spec/41_padding.md). The padding function is written line by line as R141 has it,
its guard that never fires (R143) included. -/

namespace Sys2Proof.Machine

/-- `remaining`, in bits, for a message of `n` bytes (R141). -/
def padRemaining (n : Nat) : Nat :=
  let bitlen := 8 * n
  let remaining := Config.rate - bitlen % Config.rate
  if remaining = 0 then Config.rate else remaining

/-- `padLen = ceil(remaining / 8)`, in bytes (R141). -/
def padLen (n : Nat) : Nat := (padRemaining n + 7) / 8

/-- `Q`: `padLen` bytes 0x00, the first set to 0x06, then 0x80 ORed into the last (R141). -/
def padBytes (n : Nat) : ByteSpace :=
  ((List.replicate (padLen n) (0x00 : Byte)).set 0 Config.suffixByte).modify (padLen n - 1) (· ||| Config.finalBitByte)

/-- `pad(M) = M || Q` (R141). -/
def pad (m : ByteSpace) : ByteSpace := m ++ padBytes m.length

/-- `PAD` (R140): `P <- pad(MSG)`, `ib <- 0`; refused only where a build bounds the message and it is longer. -/
def execPad (s : State) : Result :=
  if messageTooLong s then refuse .tooLong else .next ((s.setP (pad s.msg)).setIb 0)

end Sys2Proof.Machine
end

