-- ==== Sys2Proof/Machine/Permutation.lean ====
section
/-! DEFINITION. The permutation family: THETA, RHOPI, CHI, IOTA, ROUND, KECCAKF (spec/40_permutation.md). Each step is a
function of the whole old lane matrix to the whole new one (R110), so the orderings of R210 to R213 hold by form.
Coordinates are Fin 5, whose arithmetic is the spec's arithmetic mod 5. -/

namespace Sys2Proof.Machine

/-- `C[x]`, the parity of column `x` (R111). -/
def columnParity (a : Lanes) (x : Fin 5) : Lane :=
  laneAt a x 0 ^^^ laneAt a x 1 ^^^ laneAt a x 2 ^^^ laneAt a x 3 ^^^ laneAt a x 4

/-- `D[x] = C[(x+4) mod 5] ^ rotl64(C[(x+1) mod 5], 1)` (R111). -/
def columnMask (a : Lanes) (x : Fin 5) : Lane :=
  columnParity a (x + 4) ^^^ rotl64 (columnParity a (x + 1)) 1

/-- `theta(A)` (R111). -/
def theta (a : Lanes) : Lanes := lanesOf fun x y => laneAt a x y ^^^ columnMask a x

/-- `rho(A)`: each lane rotated by the offset of its own coordinates (R113). -/
def rho (a : Lanes) : Lanes := lanesOf fun x y => rotl64 (laneAt a x y) (ROT x y)

/-- `pi(A)` in the reading form of R114: `pi(A)[X,Y] = A[(X + 3*Y) mod 5, X]`. -/
def pi (a : Lanes) : Lanes := lanesOf fun x y => laneAt a (x + 3 * y) x

/-- `rhopi(A) = pi(rho(A))` (R115). -/
def rhopi (a : Lanes) : Lanes := pi (rho a)

/-- `chi(A)`, every lane from the old row (R117). -/
def chi (a : Lanes) : Lanes :=
  lanesOf fun x y => laneAt a x y ^^^ (~~~ laneAt a (x + 1) y &&& laneAt a (x + 2) y)

/-- `iota(A, ir)`: the round constant into lane `(0,0)` only (R119). -/
def iota (a : Lanes) (ir : Fin 24) : Lanes := setLane a 0 0 (laneAt a 0 0 ^^^ RC[ir.val])

/-- `round(A, ir) = iota(chi(rhopi(theta(A))), ir)` (R121). -/
def keccakRound (a : Lanes) (ir : Fin 24) : Lanes := iota (chi (rhopi (theta a))) ir

/-- `keccak_f(A)`: rounds 0, 1, ..., 23, each with its own constant (R123). -/
@[irreducible] def keccakF (a : Lanes) : Lanes := (List.finRange 24).foldl keccakRound a

/-- A command of this family writes the lanes and nothing else (R110). -/
def updateLanes (f : Lanes → Lanes) (s : State) : Result := .next (s.setLanes (f s.lanes))

/-- A command with a round operand: refused when no constant has that index (R87, R120, R122). -/
def updateLanesAtRound (f : Lanes → Fin 24 → Lanes) (ir : BitVec 8) (s : State) : Result :=
  match roundIndex ir with
  | some i => updateLanes (fun a => f a i) s
  | none => refuse .operandRange

/-- `THETA` (R112). -/
def execTheta (s : State) : Result := updateLanes theta s

/-- `RHOPI` (R116). -/
def execRhopi (s : State) : Result := updateLanes rhopi s

/-- `CHI` (R118). -/
def execChi (s : State) : Result := updateLanes chi s

/-- `IOTA ir` (R120). -/
def execIota (ir : BitVec 8) (s : State) : Result := updateLanesAtRound iota ir s

/-- `ROUND ir` (R122). -/
def execRound (ir : BitVec 8) (s : State) : Result := updateLanesAtRound keccakRound ir s

/-- `KECCAKF` (R124). -/
def execKeccakf (s : State) : Result := updateLanes keccakF s

end Sys2Proof.Machine
end

