-- ==== Sys2Proof/Machine/Sponge.lean ====
section
/-! DEFINITION. The sponge family: INIT, XORIN, ABSORBBLK, ABSORB, SQUEEZE (spec/42_sponge.md). -/

namespace Sys2Proof.Machine

/-- `INIT` (R150): all 25 lanes, `ib` and `ZV` to 0. -/
def execInit (s : State) : Result := .next (clearDigestValid ((s.setLanes zeroLanes).setIb 0))

/-- One pass of the loop of R151: byte `j` of a block into its lane. -/
def xorByte (a : Lanes) (j : Fin 136) (b : Byte) : Lanes :=
  let x := columnOf (wordOfByte j)
  let y := rowOf (wordOfByte j)
  setLane a x y (laneAt a x y ^^^ placeByte b j.val)

/-- `xor_block(A, Bk)`: the 136 passes, `j` ascending (R151). -/
@[irreducible] def xorBlock (a : Lanes) (bk : Block) : Lanes :=
  (List.finRange 136).foldl (fun st j => xorByte st j bk[j.val]) a

/-- `absorb_block(A, Bk) = keccak_f(xor_block(A, Bk))` (R153). -/
def absorbBlock (a : Lanes) (bk : Block) : Lanes := keccakF (xorBlock a bk)

/-- `passes` passes of the loop of R155 from block `k` on. A block that does not exist ends the loop; `absorb` never asks
for one. -/
def absorbLoop (pk : ByteSpace) : Nat → Nat → Lanes → Lanes
  | 0, _, a => a
  | passes + 1, k, a =>
    match blockAt pk k with
    | some bk => absorbLoop pk passes (k + 1) (absorbBlock a bk)
    | none => a

/-- `absorb(A, Pk, i)`: blocks `i, i+1, ..., nblocks - 1` in ascending order, none when `i >= nblocks` (R155). -/
@[irreducible] def absorb (a : Lanes) (pk : ByteSpace) (i : Nat) : Lanes := absorbLoop pk (nblocks pk - i) i a

/-- `squeeze(A)`: `out[8w + k] = v[8k+7:8k]` for the lanes `v = L[w]`, `w` in 0..3 (R157). -/
@[irreducible] def squeeze (a : Lanes) : Digest :=
  Vector.ofFn fun i : Fin 32 => laneByte (a[i.val / 8]'(by have := i.isLt; omega)) (i.val % 8)

/-- `XORIN` (R152): refused when there is no block `ib`; does not advance `ib`. -/
def execXorin (s : State) : Result :=
  match blockAt s.p s.ib with
  | some bk => .next (s.setLanes (xorBlock s.lanes bk))
  | none => refuse .noBlock

/-- `ABSORBBLK` (R154): refused when there is no block `ib`; advances `ib`. -/
def execAbsorbblk (s : State) : Result :=
  match blockAt s.p s.ib with
  | some bk => .next ((s.setLanes (absorbBlock s.lanes bk)).setIb (s.ib + 1))
  | none => refuse .noBlock

/-- `ABSORB` (R156): every block left; with none left it completes and changes nothing. -/
def execAbsorb (s : State) : Result :=
  .next ((s.setLanes (absorb s.lanes s.p s.ib)).setIb (max s.ib (nblocks s.p)))

/-- `SQUEEZE` (R158): `Z` from `L[0..3]`, `ZV <- 1`; no permutation. -/
def execSqueeze (s : State) : Result := .next (writeDigest s (squeeze s.lanes))

end Sys2Proof.Machine
end

