-- ==== Sys2Proof/Machine/Hash.lean ====
section
/-! DEFINITION. The digest-engine family: HASH (spec/43_hash.md). -/

namespace Sys2Proof.Machine

/-- `sha3_256(M) = squeeze(absorb(ZERO, pad(M), 0))` (R171). -/
def sha3_256 (m : ByteSpace) : Digest := squeeze (absorb zeroLanes (pad m) 0)

/-- `HASH` line by line as R170 has it; refused only where a build bounds the message and it is longer. -/
def execHash (s : State) : Result :=
  if messageTooLong s then refuse .tooLong
  else
    let s := s.setLanes zeroLanes
    let s := s.setP (pad s.msg)
    let s := s.setLanes (absorb s.lanes s.p 0)
    let s := s.setIb (nblocks s.p)
    .next (writeDigest s (squeeze s.lanes))

end Sys2Proof.Machine
end

