-- ==== Sys2Proof/Machine/Dispatch.lean ====
section
/-! DEFINITION. One arm per command (spec/30_encoding.md R82). -/

namespace Sys2Proof.Machine

def exec (i : Instr) (s : State) : Host.Outcome State Fault Refusal :=
  match i with
  | .theta => Sys2Proof.Machine.execTheta s
  | .rhopi => Sys2Proof.Machine.execRhopi s
  | .chi => Sys2Proof.Machine.execChi s
  | .iota ir => Sys2Proof.Machine.execIota ir s
  | .round ir => Sys2Proof.Machine.execRound ir s
  | .keccakf => Sys2Proof.Machine.execKeccakf s
  | .pad => Sys2Proof.Machine.execPad s
  | .init => Sys2Proof.Machine.execInit s
  | .xorin => Sys2Proof.Machine.execXorin s
  | .absorbblk => Sys2Proof.Machine.execAbsorbblk s
  | .absorb => Sys2Proof.Machine.execAbsorb s
  | .squeeze => Sys2Proof.Machine.execSqueeze s
  | .hash => Sys2Proof.Machine.execHash s

end Sys2Proof.Machine
end

