-- ==== Sys2Proof/Machine/Step.lean ====
section
/-! DEFINITION. One step: the host's next move (spec/60_exceptions.md R197). A command runs to completion in one step
(R186). With no move left the engine waits for a command (R200) and the state stays as it is. -/

namespace Sys2Proof.Machine

/-- The engine takes one command word: it decodes it and performs the command it spells, or refuses it (R80, R85, R86). -/
def issue (w : CmdWord) (s : State) : Result :=
  match decode w with
  | .ok i => exec i s
  | .error e => refuse (decodeRefusal e)

/-- One move of the world outside, on the state with that move already taken off. -/
def perform (act : HostAct) (s : State) : Result :=
  match act with
  | .command w => issue w s
  | .writeMessage m => writeMessage m s
  | .readDigest => readDigest s
  | .reset m d => hardReset m d s

def step (s : State) : Host.Outcome State Fault Refusal :=
  match nextMove s with
  | none => .next s
  | some (act, s') => perform act s'

/-- `s` with the command of an opcode-table row's bits as the host's very next move: the machine fetches nothing, it takes
commands from the host (R27, R80). Log entry 1. -/
def State.withFetchWord (s : State) (nbits w : Nat) : State :=
  s.setHost (.command (tableCmdWord nbits w) :: s.host)

end Sys2Proof.Machine
end

