-- ==== Sys2Proof/Safety.lean ====
section
/-! DEFINITION. The terms claims about runs are stated in: the invariant of the hardware, a straight line of commands
(spec/30_encoding.md R91), and the byte order as the spec's notation defines it (spec/00_scope.md R14). -/

namespace Sys2Proof.Machine

/-- What every reachable state satisfies: `P` is empty or the padding of a message that the build accepts (R31, R140), and
`ib` never exceeds `nblocks` (R28). -/
def EngineInv (s : State) : Prop :=
  (s.p = [] ∨ ∃ m : ByteSpace, s.p = pad m ∧ ∀ b, s.maxMsg = some b → m.length ≤ b) ∧ s.ib ≤ nblocks s.p

/-- A step is safe when it does not end in a fault. -/
def SafeStep (s : State) : Prop := ∀ f, step s ≠ .fault f

/-- The commands of a list performed in the order issued, ending at the first that is not performed (R91). -/
def runCommands : List Instr → State → Result
  | [], s => .next s
  | i :: rest, s =>
    match exec i s with
    | .next t => runCommands rest t
    | .fault f => .fault f
    | .refused r => .refused r

/-- `le64` of R14 as a number: `b0 + b1*2^8 + ...`. -/
def leNat : List Byte → Nat
  | [] => 0
  | b :: rest => b.toNat + 256 * leNat rest

/-- The number of 1 bits of a lane. -/
def laneOnes (v : Lane) : Nat := ((List.range 64).map fun i => (v.getLsbD i).toNat).sum

/-- The number of 1 bits of the 1600-bit state. -/
def stateOnes (a : Lanes) : Nat := (a.toList.map laneOnes).sum

end Sys2Proof.Machine
end

