-- ==== Sys2Proof/Certificates/Slice0/Obligations.lean ====
section
/-! DEFINITION. The statements for the provers, from the numbered rules of spec/. A frame is said by `t = { s with … }`,
which leaves every register, flag, byte and model field not named as it was, and once more, byte by byte through byteAt,
in CommandsWriteOnlyWhatTheTableSays. -/

open Sys2Proof Sys2Proof.Machine

/-! ### What the spec prints, as data -/

namespace Sys2Proof.Spec

/-- The word with `OPC = opc` and `ARG = arg` (30_encoding.md R81). -/
def cmdOf (opc arg : Nat) : CmdWord := BitVec.ofNat 16 (256 * opc + arg)

/-- The format N rows of the opcode map (30_encoding.md R82). -/
def formatNMap : List (Nat × Instr) :=
  [(0x01, .theta), (0x02, .rhopi), (0x03, .chi), (0x06, .keccakf), (0x07, .pad), (0x08, .init), (0x09, .xorin),
   (0x0A, .absorbblk), (0x0B, .absorb), (0x0C, .squeeze), (0x0D, .hash)]

/-- The table of R24 as it prints, row by row: an index and the round constant it has, twice in a row. -/
def printedRC : List (Nat × Nat) :=
  [(0, 0x0000000000000001), (12, 0x000000008000808B),
   (1, 0x0000000000008082), (13, 0x800000000000008B),
   (2, 0x800000000000808A), (14, 0x8000000000008089),
   (3, 0x8000000080008000), (15, 0x8000000000008003),
   (4, 0x000000000000808B), (16, 0x8000000000008002),
   (5, 0x0000000080000001), (17, 0x8000000000000080),
   (6, 0x8000000080008081), (18, 0x000000000000800A),
   (7, 0x8000000000008009), (19, 0x800000008000000A),
   (8, 0x000000000000008A), (20, 0x8000000080008081),
   (9, 0x0000000000000088), (21, 0x8000000000008080),
   (10, 0x0000000080008009), (22, 0x0000000080000001),
   (11, 0x000000008000000A), (23, 0x8000000080008008)]

/-- The rotation offsets by word index as R25 lists them. -/
def printedROT : List Nat :=
  [0, 1, 62, 28, 27, 36, 44, 6, 55, 20, 3, 10, 43, 25, 39, 41, 45, 15, 21, 8, 18, 2, 61, 56, 14]

/-- The table of R115: source word index, rotation, destination word index. -/
def printedRhopi : List (Nat × Nat × Nat) :=
  [(0, 0, 0), (1, 1, 10), (2, 62, 20), (3, 28, 5), (4, 27, 15), (5, 36, 16), (6, 44, 1), (7, 6, 11), (8, 55, 21),
   (9, 20, 6), (10, 3, 7), (11, 10, 17), (12, 43, 2), (13, 25, 12), (14, 39, 22), (15, 41, 23), (16, 45, 8),
   (17, 15, 18), (18, 21, 3), (19, 8, 13), (20, 18, 14), (21, 2, 24), (22, 61, 9), (23, 56, 19), (24, 14, 4)]

/-- The feedback register of 93_implementation_defined.md G1 after `t` steps: polynomial `x^8 + x^6 + x^5 + x^4 + 1`, start
value 1. -/
def lfsr : Nat → Nat
  | 0 => 1
  | t + 1 => if 2 * lfsr t < 256 then 2 * lfsr t else (2 * lfsr t) ^^^ 0x171

/-- The walk of the coordinates of G2: from `(1, 0)`, each step `(x, y) <- (y, 2x + 3y)`. -/
def piWalk : Nat → Fin 5 × Fin 5
  | 0 => (1, 0)
  | t + 1 => ((piWalk t).2, 2 * (piWalk t).1 + 3 * (piWalk t).2)

/-- The padding bytes of a message of `n` bytes as the table of R144 gives them. -/
def printedPadding (n : Nat) : List Byte :=
  if n % 136 = 135 then [0x86] else [0x06] ++ List.replicate (134 - n % 136) 0x00 ++ [0x80]

/-- The permutation family (40_permutation.md). -/
def permutationFamily (i : Instr) : Prop :=
  i = .theta ∨ i = .rhopi ∨ i = .chi ∨ (∃ ir, i = .iota ir) ∨ (∃ ir, i = .round ir) ∨ i = .keccakf

end Sys2Proof.Spec

open Sys2Proof.Spec

/-! ### Encoding -/

/-- Decoding what the encoder gives is the same command, for every command and every operand the encoding admits
(30_encoding.md R81, R82, R85). -/
def Obligations.DecodeOfEncodeIsIdentity : Prop :=
  ∀ i : Instr, WellFormed i = true → decode (encode i) = .ok i

/-- A word that decodes is the encoding of the command it decodes to, and that command is well-formed: each word has one
meaning (R85, R88). -/
def Obligations.EncodeOfDecodeIsIdentity : Prop :=
  ∀ (w : CmdWord) (i : Instr), decode w = .ok i → WellFormed i = true ∧ encode i = w

/-- R85: the decoder on all 65536 words, and the count of those that decode. -/
def Obligations.DecoderFollowsTheOpcodeMap : Prop :=
  (∀ opc arg : Nat, opc < 256 → arg < 256 →
    (∀ i, (opc, i) ∈ formatNMap →
      decode (cmdOf opc arg) = if arg = 0 then .ok i else .error .illegalCommand) ∧
    (opc = 0x04 →
      decode (cmdOf opc arg) = if arg ≤ 23 then .ok (.iota (BitVec.ofNat 8 arg)) else .error .operandRange) ∧
    (opc = 0x05 →
      decode (cmdOf opc arg) = if arg ≤ 23 then .ok (.round (BitVec.ofNat 8 arg)) else .error .operandRange) ∧
    (opc = 0x00 ∨ 0x0E ≤ opc → decode (cmdOf opc arg) = .error .illegalCommand)) ∧
  ∃ ws : List CmdWord, ws.length = 59 ∧ ws.Nodup ∧ ∀ w, w ∈ ws ↔ ∃ i, decode w = .ok i

/-- Words written out from R81 and R82 (the vectors E1 to E25 of 95_test_vectors.md). -/
def Obligations.SampleCommandWordsDecode : Prop :=
  decode 0b0000000100000000 = .ok .theta ∧ decode 0b0000001000000000 = .ok .rhopi ∧
  decode 0b0000001100000000 = .ok .chi ∧ decode 0b0000010000010111 = .ok (.iota 23) ∧
  decode 0b0000010100000101 = .ok (.round 5) ∧ decode 0b0000011000000000 = .ok .keccakf ∧
  decode 0b0000011100000000 = .ok .pad ∧ decode 0b0000100000000000 = .ok .init ∧
  decode 0b0000100100000000 = .ok .xorin ∧ decode 0b0000101000000000 = .ok .absorbblk ∧
  decode 0b0000101100000000 = .ok .absorb ∧ decode 0b0000110000000000 = .ok .squeeze ∧
  decode 0b0000110100000000 = .ok .hash ∧ decode 0b0000010000011000 = .error .operandRange ∧
  decode 0b0000011000011000 = .error .illegalCommand ∧ decode 0 = .error .illegalCommand

/-! ### The tables and the rotation -/

/-- R24 and R25: the tables hold the printed values; only bits 0, 1, 3, 7, 15, 31, 63 of a round constant are ever set;
the equal constants; every offset but `ROT[0,0] = 0` differs from every other. -/
def Obligations.ConstantTablesAsPrinted : Prop :=
  printedRC.length = 24 ∧ (∀ ir : Fin 24, (ir.val, RC[ir.val].toNat) ∈ printedRC) ∧
  (∀ x y : Fin 5, printedROT[x.val + 5 * y.val]? = some (ROT x y).val) ∧
  (∀ (ir : Fin 24) (b : Fin 64), RC[ir.val].getLsbD b.val = true → b.val ∈ [0, 1, 3, 7, 15, 31, 63]) ∧
  RC[6] = RC[20] ∧ RC[5] = RC[22] ∧ ROT 0 0 = 0 ∧
  (∀ x y x' y' : Fin 5, ROT x y = ROT x' y' → x = x' ∧ y = y')

/-- The tables follow the generating rules of 93_implementation_defined.md G1 and G2. -/
def Obligations.ConstantTablesFollowTheGeneratingRules : Prop :=
  (∀ (ir : Fin 24) (b : Fin 64),
    RC[ir.val].getLsbD b.val = decide (∃ j : Fin 7, b.val = 2 ^ j.val - 1 ∧ lfsr (j.val + 7 * ir.val) % 2 = 1)) ∧
  (∀ t : Fin 24, (ROT (piWalk t.val).1 (piWalk t.val).2).val = ((t.val + 1) * (t.val + 2) / 2) % 64) ∧
  ROT 0 0 = 0

/-- R11: bit `i` of `v` becomes bit `(i + n) mod 64` of `rotl64(v, n)`, for every `n` in 0..63. -/
def Obligations.RotateLeftMovesBits : Prop :=
  ∀ (v : Lane) (n : Fin 64) (i : Nat), i < 64 → (rotl64 v n).getLsbD ((i + n.val) % 64) = v.getLsbD i

/-! ### The permutation family -/

/-- R111: `THETA` completes on every state, XORs `D[x]` into every lane of column `x`, all parities taken from the old
lanes, and changes nothing but the lanes. -/
def Obligations.ThetaXorsColumnMasks : Prop :=
  ∀ s : State, ∃ t, exec .theta s = .next t ∧ t = { s with lanes := t.lanes } ∧
    (let C : Fin 5 → Lane := fun x =>
      laneAt s.lanes x 0 ^^^ laneAt s.lanes x 1 ^^^ laneAt s.lanes x 2 ^^^ laneAt s.lanes x 3 ^^^ laneAt s.lanes x 4
    ∀ x y : Fin 5,
      laneAt t.lanes x y = laneAt s.lanes x y ^^^ (C (x + 4) ^^^ (C (x + 1)).rotateLeft 1))

/-- The corner cases of R112: all-zero and all-ones lanes are left as they are; a single non-zero lane spreads to the
column to its right, and rotated to the column to its left. -/
def Obligations.ThetaCornerCases : Prop :=
  (∀ s : State, (∀ x y, laneAt s.lanes x y = 0) → exec .theta s = .next s) ∧
  (∀ s : State, (∀ x y, laneAt s.lanes x y = 0xFFFFFFFFFFFFFFFF) → exec .theta s = .next s) ∧
  (∀ (s : State) (x0 y0 : Fin 5) (v : Lane),
    (∀ x y, laneAt s.lanes x y = if x = x0 ∧ y = y0 then v else 0) →
    ∃ t, exec .theta s = .next t ∧ ∀ x y,
      laneAt t.lanes x y =
        if x = x0 then (if y = y0 then v else 0)
        else if x = x0 + 1 then v
        else if x = x0 + 4 then v.rotateLeft 1
        else 0)

/-- R113 and R115: rho rotates each lane by the offset of its own coordinates, rhopi is pi after rho; `RHOPI` completes on
every state, rotates each lane by the offset of its source coordinates and moves it to `(y, 2x + 3y)`, row by row of the
table the spec derives from R113, R114 and R25, and changes nothing but the lanes. -/
def Obligations.RhopiRotatesAndMoves : Prop :=
  (∀ (a : Lanes) (x y : Fin 5), laneAt (rho a) x y = (laneAt a x y).rotateLeft (ROT x y).val) ∧
  (∀ a : Lanes, rhopi a = pi (rho a)) ∧
  ∀ s : State, ∃ t, exec .rhopi s = .next t ∧ t = { s with lanes := t.lanes } ∧
    (∀ x y : Fin 5, laneAt t.lanes y (2 * x + 3 * y) = (laneAt s.lanes x y).rotateLeft (ROT x y).val) ∧
    (∀ w n W, (w, n, W) ∈ printedRhopi → t.lanes[W]? = (s.lanes[w]?).map fun v => v.rotateLeft n)

/-- The corner cases of R116: all-zero and all-ones lanes are left as they are, lane `(0,0)` always is, and the number of
1 bits in the state is preserved. -/
def Obligations.RhopiCornerCases : Prop :=
  (∀ s : State, (∀ x y, laneAt s.lanes x y = 0) → exec .rhopi s = .next s) ∧
  (∀ s : State, (∀ x y, laneAt s.lanes x y = 0xFFFFFFFFFFFFFFFF) → exec .rhopi s = .next s) ∧
  (∀ s : State, ∃ t, exec .rhopi s = .next t ∧ laneAt t.lanes 0 0 = laneAt s.lanes 0 0 ∧
    stateOnes t.lanes = stateOnes s.lanes)

/-- R114: the writing form and the reading form of pi, its fixed lane, and its one cycle of length 24. -/
def Obligations.PiIsOneCycleOfTwentyFour : Prop :=
  (∀ (a : Lanes) (x y : Fin 5), laneAt (pi a) y (2 * x + 3 * y) = laneAt a x y) ∧
  (∀ (a : Lanes) (x y : Fin 5), laneAt (pi a) x y = laneAt a (x + 3 * y) x) ∧
  (∀ a : Lanes, laneAt (pi a) 0 0 = laneAt a 0 0) ∧
  (∀ a : Lanes, pi^[24] a = a) ∧
  (∀ k : Nat, 0 < k → k < 24 → ∀ x y : Fin 5, ¬(x = 0 ∧ y = 0) → ∃ a : Lanes, laneAt (pi^[k] a) x y ≠ laneAt a x y)

/-- R117: `CHI` completes on every state, computes every lane from the old row, and changes nothing but the lanes. -/
def Obligations.ChiCombinesRows : Prop :=
  ∀ s : State, ∃ t, exec .chi s = .next t ∧ t = { s with lanes := t.lanes } ∧
    ∀ x y : Fin 5,
      laneAt t.lanes x y =
        laneAt s.lanes x y ^^^ ((laneAt s.lanes (x + 1) y ^^^ 0xFFFFFFFFFFFFFFFF) &&& laneAt s.lanes (x + 2) y)

/-- The corner cases of R118: all-zero and all-ones lanes are left as they are; in a row with one non-zero lane, the lane
two to its left gains it. -/
def Obligations.ChiCornerCases : Prop :=
  (∀ s : State, (∀ x y, laneAt s.lanes x y = 0) → exec .chi s = .next s) ∧
  (∀ s : State, (∀ x y, laneAt s.lanes x y = 0xFFFFFFFFFFFFFFFF) → exec .chi s = .next s) ∧
  (∀ (s : State) (x0 y : Fin 5) (v : Lane),
    (∀ x, laneAt s.lanes x y = if x = x0 then v else 0) →
    ∃ t, exec .chi s = .next t ∧ ∀ x, laneAt t.lanes x y = if x = x0 ∨ x = x0 + 3 then v else 0)

/-- R119 with the completion and the refusal of R120: `IOTA ir` XORs the printed constant into lane `(0,0)` only; with
`ir` of 24 or more it is refused. -/
def Obligations.IotaXorsTheRoundConstant : Prop :=
  (∀ (s : State) (ir : BitVec 8), ir.toNat < 24 →
    ∃ t, exec (.iota ir) s = .next t ∧ t = { s with lanes := t.lanes } ∧
      (∀ c, (ir.toNat, c) ∈ printedRC → laneAt t.lanes 0 0 = laneAt s.lanes 0 0 ^^^ BitVec.ofNat 64 c) ∧
      ∀ x y : Fin 5, ¬(x = 0 ∧ y = 0) → laneAt t.lanes x y = laneAt s.lanes x y) ∧
  (∀ (s : State) (ir : BitVec 8), 24 ≤ ir.toNat → exec (.iota ir) s = .refused .operandRange)

/-- The corner cases of R120: `IOTA ir` twice restores the state; `IOTA 5` and `IOTA 22` have the same effect, as have
`IOTA 6` and `IOTA 20`. -/
def Obligations.IotaCornerCases : Prop :=
  (∀ (s : State) (ir : BitVec 8), ir.toNat < 24 → runCommands [.iota ir, .iota ir] s = .next s) ∧
  (∀ s : State, exec (.iota 5) s = exec (.iota 22) s ∧ exec (.iota 6) s = exec (.iota 20) s)

/-- R121: `ROUND ir` completes for `ir` in 0..23 and leaves exactly the state of `THETA; RHOPI; CHI; IOTA ir`, nothing but
the lanes changed; with `ir` of 24 or more it is refused (R122); on the all-zero lanes it leaves `L[0] = RC[ir]` and all
other lanes 0 (R122). -/
def Obligations.RoundIsItsFourSteps : Prop :=
  (∀ (s : State) (ir : BitVec 8), ir.toNat < 24 →
    ∃ t, exec (.round ir) s = .next t ∧ t = { s with lanes := t.lanes } ∧
      runCommands [.theta, .rhopi, .chi, .iota ir] s = .next t ∧
      ((∀ x y, laneAt s.lanes x y = 0) →
        ∀ x y : Fin 5, ∀ c, (ir.toNat, c) ∈ printedRC →
          laneAt t.lanes x y = if x = 0 ∧ y = 0 then BitVec.ofNat 64 c else 0)) ∧
  (∀ (s : State) (ir : BitVec 8), 24 ≤ ir.toNat → exec (.round ir) s = .refused .operandRange)

/-- R123: `KECCAKF` completes on every state and leaves exactly the state of `ROUND 0; ROUND 1; ...; ROUND 23`, nothing but
the lanes changed. -/
def Obligations.KeccakfIsTwentyFourRounds : Prop :=
  ∀ s : State, ∃ t, exec .keccakf s = .next t ∧ t = { s with lanes := t.lanes } ∧
    runCommands ((List.range 24).map fun ir => .round (BitVec.ofNat 8 ir)) s = .next t

/-- R110: every command of the family completes on every state when its operand is legal, writes only the lanes, and what
it writes depends on nothing but the lanes and the operand. -/
def Obligations.PermutationFamilyIsAFunctionOfTheLanes : Prop :=
  ∀ i : Instr, permutationFamily i → WellFormed i = true → ∀ s : State,
    ∃ t, exec i s = .next t ∧ t = { s with lanes := t.lanes } ∧
      ∀ s' : State, s'.lanes = s.lanes → exec i s' = .next { s' with lanes := t.lanes }

/-! ### Padding -/

/-- R143, which the spec marks as derived from R141: the guard of R141 never fires, and `remaining` is what the first line gives. -/
def Obligations.PaddingGuardNeverFires : Prop :=
  ∀ n : Nat, 1088 - 8 * n % 1088 ≠ 0 ∧ padRemaining n = 1088 - 8 * n % 1088

/-- R142, which the spec marks as derived from R141: the padding length is a whole number of bytes before it is rounded; its byte form, the length of the padded
message and its number of blocks. -/
def Obligations.PaddedLengthInBytes : Prop :=
  ∀ m : ByteSpace, padRemaining m.length % 8 = 0 ∧ padRemaining m.length = 8 * padLen m.length ∧
    padLen m.length = 136 - m.length % 136 ∧ 1 ≤ padLen m.length ∧ padLen m.length ≤ 136 ∧
    (pad m).length = m.length + padLen m.length ∧ (pad m).length = 136 * (m.length / 136 + 1) ∧
    nblocks (pad m) = m.length / 136 + 1 ∧ 1 ≤ nblocks (pad m)

/-- R144, which the spec marks as derived from R142: the padding bytes for every residue of the length, 0x06 then zeros then 0x80, or 0x86 alone, as many as `padLen`
says; and the boundary cases it quotes: 135, 136 and 137 message bytes pad to 136, 272 and 272. -/
def Obligations.PaddingBytesByResidue : Prop :=
  (∀ n : Nat, padBytes n = printedPadding n ∧ padLen n = (printedPadding n).length) ∧
  (∀ m : ByteSpace, pad m = m ++ printedPadding m.length ∧ (m.length = 135 → (pad m).length = 136) ∧
    (m.length = 136 → (pad m).length = 272) ∧ (m.length = 137 → (pad m).length = 272))

/-- The completion and the effect of `PAD` (R140): where the build accepts the message, `P` is the message followed by the
bytes of R144, `ib` is 0, and nothing else changes; byte by byte, `P` begins with `MSG`. Twice is the same as
once. The build's bound is a field of State by log entry 4. -/
def Obligations.PadBuildsThePaddedMessage : Prop :=
  ∀ s : State, (∀ b, s.maxMsg = some b → s.msg.length ≤ b) →
    ∃ t, exec .pad s = .next t ∧
      t = { s with p := s.msg ++ printedPadding s.msg.length, ib := 0 } ∧
      (∀ a, a < s.msg.length → byteAt t.p a = byteAt s.msg a) ∧
      exec .pad t = .next t

/-- The bound of D4 (a field of State by log entry 4) in R140 and R170: `PAD` and `HASH` are refused TooLong exactly when the build bounds the message and it
is longer. -/
def Obligations.TooLongExactlyAboveTheBound : Prop :=
  ∀ s : State, ∀ i : Instr, i = .pad ∨ i = .hash →
    ((exec i s = .refused .tooLong) ↔ ∃ b, s.maxMsg = some b ∧ b < s.msg.length) ∧
    ((∃ t, exec i s = .next t) ↔ ∀ b, s.maxMsg = some b → s.msg.length ≤ b)

/-! ### The sponge -/

/-- The effect of `INIT` (R150): all lanes, `ib` and `ZV` are 0 and nothing else changes; it completes on every state. -/
def Obligations.InitClearsLanesPointerAndFlag : Prop :=
  ∀ s : State, ∃ t, exec .init s = .next t ∧
    t = { s with lanes := t.lanes, ib := 0, zv := false } ∧ ∀ x y : Fin 5, laneAt t.lanes x y = 0

/-- R151 with the completion and the refusal of R152: where block `ib` exists, `XORIN` XORs its bytes `8w .. 8w+7`, least
significant first, into `L[w]` for `w` in 0..16, leaves `L[17..24]`, and changes nothing else (`ib` least of all); where it
does not exist, `XORIN` is refused. -/
def Obligations.XorinXorsTheBlockIntoTheRateLanes : Prop :=
  (∀ s : State, s.ib < nblocks s.p →
    ∃ t, exec .xorin s = .next t ∧ t = { s with lanes := t.lanes } ∧
      (∀ w : Fin 25, w.val < 17 →
        t.lanes[w.val] =
          s.lanes[w.val] ^^^ BitVec.ofNat 64 (leNat ((s.p.drop (136 * s.ib + 8 * w.val)).take 8))) ∧
      (∀ w : Fin 25, 17 ≤ w.val → t.lanes[w.val] = s.lanes[w.val])) ∧
  (∀ s : State, nblocks s.p ≤ s.ib → exec .xorin s = .refused .noBlock)

/-- R52, which the spec marks as derived from R50: bit `i` of the byte at offset `j` of the block meets bit `8*(j mod 8) + i` of lane `L[j div 8]`. -/
def Obligations.BlockBitsMeetLaneBits : Prop :=
  ∀ s t : State, exec .xorin s = .next t → ∀ (j : Fin 136) (i : Fin 8), ∀ b : Byte,
    byteAt s.p (136 * s.ib + j.val) = some b →
    (t.lanes[j.val / 8]'(by have := j.isLt; omega)).getLsbD (8 * (j.val % 8) + i.val) =
      ((s.lanes[j.val / 8]'(by have := j.isLt; omega)).getLsbD (8 * (j.val % 8) + i.val) ^^ b.getLsbD i.val)

/-- R152: `XORIN` twice with the same `ib` restores the state. -/
def Obligations.XorinTwiceRestores : Prop :=
  ∀ s : State, s.ib < nblocks s.p → runCommands [.xorin, .xorin] s = .next s

/-- R153 with the completion and the refusal of R154: where block `ib` exists, `ABSORBBLK` leaves exactly the state of
`XORIN; KECCAKF` with `ib` one greater; where it does not, it is refused. -/
def Obligations.AbsorbblkIsXorinThenKeccakf : Prop :=
  (∀ s : State, s.ib < nblocks s.p →
    ∃ t, runCommands [.xorin, .keccakf] s = .next t ∧ t = { s with lanes := t.lanes } ∧
      exec .absorbblk s = .next { t with ib := s.ib + 1 }) ∧
  (∀ s : State, nblocks s.p ≤ s.ib → exec .absorbblk s = .refused .noBlock)

/-- R155 as R156 uses it: `ABSORB` completes on every state and leaves exactly the state of `ABSORBBLK` issued
`nblocks - ib` times, `ib` at `max(ib, nblocks)`, nothing but the lanes and `ib` changed; with no block left it changes
nothing. -/
def Obligations.AbsorbIsAbsorbblkForEveryBlockLeft : Prop :=
  ∀ s : State, ∃ t, exec .absorb s = .next t ∧
    t = { s with lanes := t.lanes, ib := max s.ib (nblocks s.p) } ∧
    runCommands (List.replicate (nblocks s.p - s.ib) .absorbblk) s = .next t ∧
    (nblocks s.p ≤ s.ib → t = s)

/-- R157: `SQUEEZE` completes on every state; digest byte `8w + k` is bits `8k+7..8k` of lane `L[w]`, `w` in 0..3; `ZV` is
1 and nothing else changes. -/
def Obligations.SqueezeReadsFourLanes : Prop :=
  ∀ s : State, ∃ t, exec .squeeze s = .next t ∧ t = { s with z := t.z, zv := true } ∧
    ∀ (w : Fin 4) (k : Fin 8),
      (t.z[8 * w.val + k.val]'(by have := w.isLt; have := k.isLt; omega)).toNat =
        (s.lanes[w.val]'(by have := w.isLt; omega)).toNat / 2 ^ (8 * k.val) % 256

/-- R28: what each command leaves in the block pointer, and what block `k` of `P` is. -/
def Obligations.BlockPointerRule : Prop :=
  (∀ s t : State, EngineInv s →
    (exec .init s = .next t → t.ib = 0) ∧ (exec .pad s = .next t → t.ib = 0) ∧
    (exec .xorin s = .next t → t.ib = s.ib) ∧ (exec .absorbblk s = .next t → t.ib = s.ib + 1) ∧
    (exec .absorb s = .next t → t.ib = nblocks s.p) ∧ (exec .hash s = .next t → t.ib = nblocks t.p) ∧
    (∀ i, i = .squeeze ∨ permutationFamily i → exec i s = .next t → t.ib = s.ib) ∧
    (∀ i, exec i s = .next t → t.ib ≤ nblocks t.p)) ∧
  (∀ (p : ByteSpace) (k : Nat), k < p.length / 136 →
    ∃ bk, blockAt p k = some bk ∧ ∀ (j : Nat) (hj : j < 136), byteAt p (136 * k + j) = some bk[j])

/-- R56: in every state the invariant admits, the length of `P` is a multiple of 136 and every byte of every block that
exists lies inside `P`. -/
def Obligations.EveryBlockIsFull : Prop :=
  ∀ s : State, EngineInv s → s.p.length % 136 = 0 ∧
    ∀ j, j < 136 → s.ib < nblocks s.p → ∃ b, byteAt s.p (136 * s.ib + j) = some b

/-- R60: `INIT`, `PAD` and `SQUEEZE` twice in a row leave the same state as once. -/
def Obligations.InitPadSqueezeAreIdempotent : Prop :=
  ∀ i : Instr, i = .init ∨ i = .pad ∨ i = .squeeze →
    ∀ s t : State, exec i s = .next t → exec i t = .next t

/-! ### The hash -/

/-- R170: where the build accepts the message, `HASH` completes, leaves exactly the state of `INIT; PAD; ABSORB; SQUEEZE`,
with `Z = sha3_256(MSG)`, `ZV = 1`, `ib = nblocks`, and `MSG` and the model's fields unchanged. The bound is a field of
State by log entry 4. -/
def Obligations.HashIsInitPadAbsorbSqueeze : Prop :=
  ∀ s : State, (∀ b, s.maxMsg = some b → s.msg.length ≤ b) →
    ∃ t, exec .hash s = .next t ∧ runCommands [.init, .pad, .absorb, .squeeze] s = .next t ∧
      t = { s with lanes := t.lanes, p := s.msg ++ printedPadding s.msg.length, ib := s.msg.length / 136 + 1,
                   z := sha3_256 s.msg, zv := true }

/-- R159 and R203: the whole invocation block by block. `INIT; PAD` in either order, then `ABSORBBLK` exactly
`LEN div 136 + 1` times, one permutation each and none after, then `SQUEEZE`, is `HASH`. The build's bound is a
field of State by log entry 4. -/
def Obligations.HashIsOneAbsorbblkPerBlock : Prop :=
  ∀ s : State, (∀ b, s.maxMsg = some b → s.msg.length ≤ b) →
    runCommands ([.init, .pad] ++ List.replicate (s.msg.length / 136 + 1) .absorbblk ++ [.squeeze]) s = exec .hash s ∧
    runCommands ([.pad, .init] ++ List.replicate (s.msg.length / 136 + 1) .absorbblk ++ [.squeeze]) s = exec .hash s

/-- R38, which the spec marks as derived from R37 and R170: what `HASH` leaves in `A`, `P`, `ib`, `Z` and `ZV` depends on nothing any of them held before. -/
def Obligations.HashForgetsEarlierState : Prop :=
  ∀ s s' t : State, s'.msg = s.msg → s'.maxMsg = s.maxMsg → exec .hash s = .next t →
    exec .hash s' =
      .next { s' with lanes := t.lanes, p := t.p, ib := t.ib, z := t.z, zv := t.zv }

/-- The first vector of R170's promise (95_test_vectors.md S1): `HASH` again on the same `MSG` leaves the same state. -/
def Obligations.HashTwiceIsHashOnce : Prop :=
  ∀ s t : State, exec .hash s = .next t → exec .hash t = .next t

/-- R19: the contract as the host sees it. It writes any message that the build accepts, issues the word 0x0D00 and reads
the digest: three steps, and what it has is the digest of that message, whatever the state before. The fields host and taken are the
model's (log entry 1), as is the form of the build's bound (log entry 4). -/
def Obligations.HostGetsTheDigestOfItsMessage : Prop :=
  ∀ (s : State) (m : ByteSpace) (rest : List HostAct), (∀ b, s.maxMsg = some b → m.length ≤ b) →
    s.host = .writeMessage m :: .command 0x0D00 :: .readDigest :: rest →
    ∃ t, Host.Core.run Sys2Proof.core 3 s = .next t ∧ t.taken = some (sha3_256 m) ∧ t.host = rest ∧ t.msg = m

/-- R68: a write of `MSG` after `PAD` has no effect on `P`, nor on what absorbing and squeezing leave. -/
def Obligations.LateMessageWriteDoesNotReachTheDigest : Prop :=
  ∀ (s : State) (m : ByteSpace), ∃ t, runCommands [.absorb, .squeeze] s = .next t ∧
    runCommands [.absorb, .squeeze] { s with msg := m } = .next { t with msg := m }

/-! ### Refusals, faults, the host, reset -/

/-- R36 and the table of R22: which command may write which state. The engine never writes `MSG`, the build's bound (a field
by log entry 4) or the host's side (log entry 1). -/
def Obligations.CommandsWriteOnlyWhatTheTableSays : Prop :=
  ∀ (i : Instr) (s t : State), exec i s = .next t →
    (∀ a, byteAt t.msg a = byteAt s.msg a) ∧ t.maxMsg = s.maxMsg ∧ t.host = s.host ∧ t.taken = s.taken ∧
    (i ≠ .pad → i ≠ .hash → ∀ a, byteAt t.p a = byteAt s.p a) ∧
    (i ≠ .squeeze → i ≠ .hash → t.z = s.z) ∧
    (i ≠ .init → i ≠ .squeeze → i ≠ .hash → t.zv = s.zv) ∧
    (i ≠ .init → i ≠ .pad → i ≠ .absorbblk → i ≠ .absorb → i ≠ .hash → t.ib = s.ib) ∧
    (i = .pad ∨ i = .squeeze → t.lanes = s.lanes) ∧
    ((∃ ir, i = .iota ir) → ∀ w : Fin 25, 1 ≤ w.val → t.lanes[w.val] = s.lanes[w.val]) ∧
    (i = .xorin → ∀ w : Fin 25, 17 ≤ w.val → t.lanes[w.val] = s.lanes[w.val])

/-- R180: no command and no command word, on any state, raises an exception. -/
def Obligations.NoCommandFaults : Prop :=
  (∀ (i : Instr) (s : State) (f : Fault), exec i s ≠ .fault f) ∧
  (∀ (w : CmdWord) (s : State) (f : Fault), issue w s ≠ .fault f)

/-- R181 and R184: a step is refused exactly when the host's next move is a command word for which one row of the table of
reasons holds, with that reason (host: log entry 1). -/
def Obligations.StepRefusesExactlyAsTheTableSays : Prop :=
  ∀ (s : State) (r : Refusal), step s = .refused r ↔
    ∃ w rest, s.host = .command w :: rest ∧
      ((decode w = .error .illegalCommand ∧ r = .illegalCommand) ∨
       (decode w = .error .operandRange ∧ r = .operandRange) ∨
       ((decode w = .ok .xorin ∨ decode w = .ok .absorbblk) ∧ nblocks s.p ≤ s.ib ∧ r = .noBlock) ∨
       ((decode w = .ok .pad ∨ decode w = .ok .hash) ∧ (∃ b, s.maxMsg = some b ∧ b < s.msg.length) ∧ r = .tooLong))

/-- R86: every reserved word is refused with its reason (the word stands on the host's list of moves, log entry 1). -/
def Obligations.ReservedWordsAreRefused : Prop :=
  ∀ (s : State) (opc arg : Nat) (rest : List HostAct), opc < 256 → arg < 256 →
    s.host = .command (cmdOf opc arg) :: rest →
    (opc = 0x00 ∨ 0x0E ≤ opc ∨ (opc ≠ 0x04 ∧ opc ≠ 0x05 ∧ arg ≠ 0) → step s = .refused .illegalCommand) ∧
    (opc = 0x04 ∨ opc = 0x05 → 24 ≤ arg → step s = .refused .operandRange)

/-- R181 and R187, in the model's own terms (afterRefusal, log entry 5): after a refusal the state is as before but for the
spent command, and the engine takes the next move as after any other. -/
def Obligations.AfterARefusalTheEngineGoesOn : Prop :=
  ∀ (s : State) (r : Refusal), step s = .refused r →
    ∃ w rest, s.host = .command w :: rest ∧ afterRefusal s = { s with host := rest } ∧
      ∀ act rest', rest = act :: rest' → step (afterRefusal s) = perform act { s with host := rest' }

/-- A step performs the command its word decodes to (R80, R85): the model's step takes the word off the host's moves (log
entry 1) and is exec of the decoded command, nothing else added. -/
def Obligations.StepPerformsTheDecodedCommand : Prop :=
  ∀ (s : State) (w : CmdWord) (rest : List HostAct) (i : Instr),
    s.host = .command w :: rest → decode w = .ok i → step s = exec i { s with host := rest }

/-- R198: the host's read of `Z` faults when `ZV = 0`, gives the bytes of `Z` when `ZV = 1`, and is the one thing in the
model that faults (host and taken: log entry 1). -/
def Obligations.OnlyAnInvalidDigestReadFaults : Prop :=
  (∀ (s : State) (rest : List HostAct), s.host = .readDigest :: rest →
    (s.zv = false → step s = .fault .digestNotValid) ∧
    (s.zv = true → step s = .next { s with host := rest, taken := some s.z })) ∧
  (∀ (s : State) (f : Fault), step s = .fault f → s.zv = false ∧ ∃ rest, s.host = .readDigest :: rest)

/-- R36 and R197: the host's write of a message changes `MSG` and nothing else of the machine
(host: log entry 1). -/
def Obligations.HostMessageWriteChangesOnlyMsg : Prop :=
  ∀ (s : State) (m : ByteSpace) (rest : List HostAct), s.host = .writeMessage m :: rest →
    step s = .next { s with msg := m, host := rest }

/-- R200: a hardware reset, from any state, leaves all lanes zero, `P` empty, `ib = 0`, `ZV = 0`, whatever `MSG` and the bits
of `Z` are after it, and starts no operation; State.reset is such a state, and in it the engine waits and a read of `Z`
faults. That `MSG` and `Z` are the event's own data is the model's form (log entries 2 and 3). -/
def Obligations.ResetLeavesTheResetValues : Prop :=
  (∀ (s : State) (m : ByteSpace) (d : Digest) (rest : List HostAct), s.host = .reset m d :: rest →
    ∃ t, step s = .next t ∧ (∀ x y : Fin 5, laneAt t.lanes x y = 0) ∧ t.p = [] ∧ nblocks t.p = 0 ∧ t.ib = 0 ∧
      t.zv = false ∧ t.msg = m ∧ t.z = d ∧ t.maxMsg = s.maxMsg ∧ t.host = rest ∧ t.taken = s.taken) ∧
  (∀ x y : Fin 5, laneAt State.reset.lanes x y = 0) ∧ State.reset.p = [] ∧ State.reset.ib = 0 ∧
  State.reset.zv = false ∧ step State.reset = .next State.reset ∧
  step { State.reset with host := [.readDigest] } = .fault .digestNotValid

/-- With no move of the host left a step leaves the state as it is: the engine waits (R200). That waiting is a step is the model's
choice (log entry 1). -/
def Obligations.EngineWaitsForACommand : Prop :=
  ∀ s : State, s.host = [] → step s = .next s

/-! ### The invariant -/

/-- The invariant of R28, R31 and R56 is kept by every step, of the engine or of the host. -/
def Obligations.StepKeepsTheInvariant : Prop :=
  ∀ s t : State, EngineInv s → step s = .next t → EngineInv t

/-- The invariant holds in the reset state. -/
def Obligations.ResetHasTheInvariant : Prop := EngineInv State.reset

/-- The build's bound MAX_MSG_BYTES is fixed: no step changes it (00_scope.md R8; a field of State by log entry 4). -/
def Obligations.StepNeverChangesTheBuild : Prop :=
  ∀ s t : State, step s = .next t → t.maxMsg = s.maxMsg
end

