-- ==== Sys2Proof/Laws/Lanes.lean ====
section
/-! SUPPORT. What the lane operations of Machine/Operands.lean and Machine/Permutation.lean give, lane by lane. -/

namespace Sys2Proof.Machine

theorem wordIndex_lt (x y : Fin 5) : x.val + 5 * y.val < 25 := by omega

@[simp] theorem laneAt_lanesOf (f : Fin 5 → Fin 5 → Lane) (x y : Fin 5) : laneAt (lanesOf f) x y = f x y := by
  unfold lanesOf
  fin_cases x <;> fin_cases y <;> rfl

theorem getElem_eq_laneAt (a : Lanes) (w : Nat) (h : w < 25) :
    a[w] = laneAt a (columnOf ⟨w, h⟩) (rowOf ⟨w, h⟩) := by
  have hw : w % 5 + 5 * (w / 5) = w := Nat.mod_add_div w 5
  simp [laneAt, columnOf, rowOf, hw]

/-- Two lane matrices with the same lane at every coordinate are equal. -/
theorem lanes_ext {a b : Lanes} (h : ∀ x y, laneAt a x y = laneAt b x y) : a = b := by
  apply Vector.ext
  intro w hw
  rw [getElem_eq_laneAt a w hw, getElem_eq_laneAt b w hw, h]

@[simp] theorem laneAt_setLane_same (a : Lanes) (x y : Fin 5) (v : Lane) : laneAt (setLane a x y v) x y = v := by
  simp [laneAt, setLane]

theorem laneAt_setLane (a : Lanes) (x y x' y' : Fin 5) (v : Lane) :
    laneAt (setLane a x y v) x' y' = if x' = x ∧ y' = y then v else laneAt a x' y' := by
  by_cases h : x' = x ∧ y' = y
  · obtain ⟨rfl, rfl⟩ := h; simp
  · have hne : x.val + 5 * y.val ≠ x'.val + 5 * y'.val := by
      intro e
      exact h ⟨Fin.ext (by omega), Fin.ext (by omega)⟩
    simp [laneAt, setLane, h, hne]

@[simp] theorem laneAt_zeroLanes (x y : Fin 5) : laneAt zeroLanes x y = 0 := by
  simp [laneAt, zeroLanes]

/-- The closed form R11 is the library's rotation. -/
theorem rotl64_eq_rotateLeft (v : Lane) (n : Fin 64) : rotl64 v n = v.rotateLeft n.val := by
  unfold rotl64
  split
  · next h =>
    have hz : v >>> 64 = 0 := BitVec.ushiftRight_eq_zero (Nat.le_refl _)
    simp [h, BitVec.rotateLeft_def, hz]
  · rw [BitVec.rotateLeft_def, Nat.mod_eq_of_lt n.isLt]

theorem laneAt_theta (a : Lanes) (x y : Fin 5) : laneAt (theta a) x y = laneAt a x y ^^^ columnMask a x := by
  rw [theta, laneAt_lanesOf]

theorem laneAt_rho (a : Lanes) (x y : Fin 5) : laneAt (rho a) x y = rotl64 (laneAt a x y) (ROT x y) := by
  rw [rho, laneAt_lanesOf]

theorem laneAt_pi (a : Lanes) (x y : Fin 5) : laneAt (pi a) x y = laneAt a (x + 3 * y) x := by
  rw [pi, laneAt_lanesOf]

theorem laneAt_chi (a : Lanes) (x y : Fin 5) :
    laneAt (chi a) x y = laneAt a x y ^^^ (~~~ laneAt a (x + 1) y &&& laneAt a (x + 2) y) := by
  rw [chi, laneAt_lanesOf]

theorem laneAt_iota (a : Lanes) (ir : Fin 24) (x y : Fin 5) :
    laneAt (iota a ir) x y = if x = 0 ∧ y = 0 then laneAt a 0 0 ^^^ RC[ir.val] else laneAt a x y :=
  laneAt_setLane a 0 0 x y _

theorem roundIndex_of_lt {ir : BitVec 8} (h : ir.toNat < 24) : roundIndex ir = some ⟨ir.toNat, h⟩ := dif_pos h

theorem roundIndex_of_ge {ir : BitVec 8} (h : 24 ≤ ir.toNat) : roundIndex ir = none := dif_neg (by omega)

/-- One pass of xorBlock changes the lane of its byte and no other. -/
theorem laneAt_xorByte (a : Lanes) (j : Fin 136) (b : Byte) (x y : Fin 5) :
    laneAt (xorByte a j b) x y =
      if j.val / 8 = x.val + 5 * y.val then laneAt a x y ^^^ placeByte b j.val else laneAt a x y := by
  have hcoord : (x = columnOf (wordOfByte j) ∧ y = rowOf (wordOfByte j)) ↔ j.val / 8 = x.val + 5 * y.val := by
    simp only [columnOf, rowOf, wordOfByte, Fin.ext_iff]
    omega
  unfold xorByte
  simp only [laneAt_setLane, hcoord]
  split
  · next h => obtain ⟨rfl, rfl⟩ := hcoord.mpr h; rfl
  · rfl

/-- The passes of xorBlock that reach lane `(x, y)`, folded on that lane alone. -/
theorem laneAt_xorPasses (bk : Block) (x y : Fin 5) (js : List (Fin 136)) (a : Lanes) :
    laneAt (js.foldl (fun st j => xorByte st j bk[j.val]) a) x y =
      js.foldl (fun v j => if j.val / 8 = x.val + 5 * y.val then v ^^^ placeByte bk[j.val] j.val else v)
        (laneAt a x y) := by
  induction js generalizing a with
  | nil => rfl
  | cons j js ih => rw [List.foldl_cons, ih, laneAt_xorByte, List.foldl_cons]

theorem laneAt_xorBlock (a : Lanes) (bk : Block) (x y : Fin 5) :
    laneAt (xorBlock a bk) x y =
      (List.finRange 136).foldl
        (fun v j => if j.val / 8 = x.val + 5 * y.val then v ^^^ placeByte bk[j.val] j.val else v) (laneAt a x y) := by
  unfold xorBlock
  exact laneAt_xorPasses bk x y _ a

/-- The capacity lanes, and the lanes above block byte 135 in general, are untouched by xorBlock (R54, R151). -/
theorem laneAt_xorBlock_capacity (a : Lanes) (bk : Block) (x y : Fin 5) (h : 17 ≤ x.val + 5 * y.val) :
    laneAt (xorBlock a bk) x y = laneAt a x y := by
  rw [laneAt_xorBlock]
  have hskip : ∀ (js : List (Fin 136)) (v : Lane),
      js.foldl (fun v j => if j.val / 8 = x.val + 5 * y.val then v ^^^ placeByte bk[j.val] j.val else v) v = v := by
    intro js
    induction js with
    | nil => intro v; rfl
    | cons j js ih =>
      intro v
      rw [List.foldl_cons, if_neg (by have := j.isLt; omega)]
      exact ih v
  exact hskip _ _

/-- Byte `8w + k` of the digest is byte `k` of lane `L[w]` (R51, R157). -/
theorem squeeze_getElem (a : Lanes) (i : Nat) (h : i < 32) :
    (squeeze a)[i] = laneByte (a[i / 8]'(by omega)) (i % 8) := by
  simp [squeeze]

end Sys2Proof.Machine
end

