-- ==== Sys2Proof/Laws/Memory.lean ====
section
/-! SUPPORT. What the byte-space operations of Machine/Ops.lean and the padding give. -/

namespace Sys2Proof.Machine

theorem memory_wf_zipIdx (sp : ByteSpace) (k : Nat) :
    Memory.wf ((sp.zipIdx k).map fun c => (c.2, c.1)) = true := by
  induction sp generalizing k with
  | nil => rfl
  | cons b sp ih =>
    cases sp with
    | nil => rfl
    | cons b' sp' =>
      have hrest := ih (k + 1)
      simp only [List.zipIdx_cons, List.map_cons] at hrest ⊢
      simp [Memory.wf, hrest]

/-- A byte space read as address and byte pairs is in canonical form, whatever operation built it. -/
theorem memory_wf_cells (sp : ByteSpace) : Memory.wf (Memory.cells sp) = true := memory_wf_zipIdx sp 0

/-- Equal canonical memories are equal data. -/
theorem memory_cells_injective {u v : ByteSpace} (h : Memory.cells u = Memory.cells v) : u = v := by
  have hbytes : ∀ w : ByteSpace, (Memory.cells w).map Prod.snd = w := by
    intro w
    simp [Memory.cells, List.map_map, Function.comp_def]
  rw [← hbytes u, h, hbytes v]

/-- Two byte spaces that read the same at every index are equal. -/
theorem byteSpace_ext {u v : ByteSpace} (h : ∀ a, byteAt u a = byteAt v a) : u = v := List.ext_getElem? h

theorem memRead_isSome_iff (sp : ByteSpace) (a n : Nat) : (memRead sp a n).isSome = true ↔ a + n ≤ sp.length := by
  unfold memRead
  split <;> simp_all

/-- Byte `j` of what memRead gives is byte `a + j` of the space. -/
theorem memRead_byte {sp : ByteSpace} {a n : Nat} {v : Vector Byte n} (h : memRead sp a n = some v) (j : Nat)
    (hj : j < n) : byteAt sp (a + j) = some v[j] := by
  unfold memRead at h
  split at h
  · next hfit =>
    obtain rfl := Option.some.inj h
    have hlt : a + j < sp.length := by omega
    simp [byteAt, hlt]
  · cases h

theorem blockAt_of_ge {p : ByteSpace} {k : Nat} (h : nblocks p ≤ k) : blockAt p k = none :=
  if_neg (by omega)

/-- Block `k` of `P` exists exactly when `k < nblocks` (R28, R56). -/
theorem blockAt_isSome_iff (p : ByteSpace) (k : Nat) : (blockAt p k).isSome = true ↔ k < nblocks p := by
  unfold blockAt
  split
  · next h =>
    rw [memRead_isSome_iff]
    have hfull : 136 * (p.length / 136) ≤ p.length := Nat.mul_div_le _ _
    simp only [nblocks, Config.rateBytes] at h ⊢
    constructor <;> intro _ <;> omega
  · next h => simp [h]

theorem blockAt_of_lt {p : ByteSpace} {k : Nat} (h : k < nblocks p) : ∃ bk, blockAt p k = some bk :=
  Option.isSome_iff_exists.mp ((blockAt_isSome_iff p k).mpr h)

theorem lt_of_blockAt {p : ByteSpace} {k : Nat} {bk : Block} (h : blockAt p k = some bk) : k < nblocks p :=
  (blockAt_isSome_iff p k).mp (by rw [h]; rfl)

/-- Byte `j` of block `k` is byte `136*k + j` of `P` (R28). -/
theorem blockAt_byte {p : ByteSpace} {k : Nat} {bk : Block} (h : blockAt p k = some bk) (j : Nat) (hj : j < 136) :
    byteAt p (136 * k + j) = some bk[j] := by
  rw [blockAt, if_pos (lt_of_blockAt h)] at h
  exact memRead_byte h j hj

@[simp] theorem nblocks_nil : nblocks [] = 0 := by simp [nblocks]

@[simp] theorem length_padBytes (n : Nat) : (padBytes n).length = padLen n := by
  simp [padBytes]

theorem length_pad (m : ByteSpace) : (pad m).length = m.length + padLen m.length := by
  simp [pad]

/-- The loop of absorb, one block at a time, from a block that exists. -/
theorem absorbLoop_succ {pk : ByteSpace} {k : Nat} {bk : Block} (h : blockAt pk k = some bk) (n : Nat) (a : Lanes) :
    absorbLoop pk (n + 1) k a = absorbLoop pk n (k + 1) (absorbBlock a bk) := by
  simp [absorbLoop, h]

/-- With no block left absorb changes nothing (R155). -/
theorem absorb_of_ge {pk : ByteSpace} {k : Nat} (h : nblocks pk ≤ k) (a : Lanes) : absorb a pk k = a := by
  simp [absorb, Nat.sub_eq_zero_of_le h, absorbLoop]

/-- With block `k` there, absorb takes it and goes on from block `k + 1` (R155). -/
theorem absorb_of_block {pk : ByteSpace} {k : Nat} {bk : Block} (h : blockAt pk k = some bk) (a : Lanes) :
    absorb a pk k = absorb (absorbBlock a bk) pk (k + 1) := by
  have hlt := lt_of_blockAt h
  have hn : nblocks pk - k = (nblocks pk - (k + 1)) + 1 := by omega
  rw [absorb, hn, absorbLoop_succ h, absorb]

theorem messageTooLong_iff (s : State) :
    messageTooLong s = true ↔ ∃ b, s.maxMsg = some b ∧ b < s.msg.length := by
  unfold messageTooLong
  cases s.maxMsg <;> simp

end Sys2Proof.Machine
end

