-- ==== Sys2Proof/Laws/State.lean ====
section
/-! SUPPORT. One lemma per field per update of State. -/

namespace Sys2Proof.Machine

@[simp] theorem State.setLanes_lanes (s : State) (v : Lanes) : (s.setLanes v).lanes = v := rfl
@[simp] theorem State.setLanes_msg (s : State) (v : Lanes) : (s.setLanes v).msg = s.msg := rfl
@[simp] theorem State.setLanes_p (s : State) (v : Lanes) : (s.setLanes v).p = s.p := rfl
@[simp] theorem State.setLanes_ib (s : State) (v : Lanes) : (s.setLanes v).ib = s.ib := rfl
@[simp] theorem State.setLanes_z (s : State) (v : Lanes) : (s.setLanes v).z = s.z := rfl
@[simp] theorem State.setLanes_zv (s : State) (v : Lanes) : (s.setLanes v).zv = s.zv := rfl
@[simp] theorem State.setLanes_maxMsg (s : State) (v : Lanes) : (s.setLanes v).maxMsg = s.maxMsg := rfl
@[simp] theorem State.setLanes_host (s : State) (v : Lanes) : (s.setLanes v).host = s.host := rfl
@[simp] theorem State.setLanes_taken (s : State) (v : Lanes) : (s.setLanes v).taken = s.taken := rfl

@[simp] theorem State.setMsg_lanes (s : State) (v : ByteSpace) : (s.setMsg v).lanes = s.lanes := rfl
@[simp] theorem State.setMsg_msg (s : State) (v : ByteSpace) : (s.setMsg v).msg = v := rfl
@[simp] theorem State.setMsg_p (s : State) (v : ByteSpace) : (s.setMsg v).p = s.p := rfl
@[simp] theorem State.setMsg_ib (s : State) (v : ByteSpace) : (s.setMsg v).ib = s.ib := rfl
@[simp] theorem State.setMsg_z (s : State) (v : ByteSpace) : (s.setMsg v).z = s.z := rfl
@[simp] theorem State.setMsg_zv (s : State) (v : ByteSpace) : (s.setMsg v).zv = s.zv := rfl
@[simp] theorem State.setMsg_maxMsg (s : State) (v : ByteSpace) : (s.setMsg v).maxMsg = s.maxMsg := rfl
@[simp] theorem State.setMsg_host (s : State) (v : ByteSpace) : (s.setMsg v).host = s.host := rfl
@[simp] theorem State.setMsg_taken (s : State) (v : ByteSpace) : (s.setMsg v).taken = s.taken := rfl

@[simp] theorem State.setP_lanes (s : State) (v : ByteSpace) : (s.setP v).lanes = s.lanes := rfl
@[simp] theorem State.setP_msg (s : State) (v : ByteSpace) : (s.setP v).msg = s.msg := rfl
@[simp] theorem State.setP_p (s : State) (v : ByteSpace) : (s.setP v).p = v := rfl
@[simp] theorem State.setP_ib (s : State) (v : ByteSpace) : (s.setP v).ib = s.ib := rfl
@[simp] theorem State.setP_z (s : State) (v : ByteSpace) : (s.setP v).z = s.z := rfl
@[simp] theorem State.setP_zv (s : State) (v : ByteSpace) : (s.setP v).zv = s.zv := rfl
@[simp] theorem State.setP_maxMsg (s : State) (v : ByteSpace) : (s.setP v).maxMsg = s.maxMsg := rfl
@[simp] theorem State.setP_host (s : State) (v : ByteSpace) : (s.setP v).host = s.host := rfl
@[simp] theorem State.setP_taken (s : State) (v : ByteSpace) : (s.setP v).taken = s.taken := rfl

@[simp] theorem State.setIb_lanes (s : State) (v : Nat) : (s.setIb v).lanes = s.lanes := rfl
@[simp] theorem State.setIb_msg (s : State) (v : Nat) : (s.setIb v).msg = s.msg := rfl
@[simp] theorem State.setIb_p (s : State) (v : Nat) : (s.setIb v).p = s.p := rfl
@[simp] theorem State.setIb_ib (s : State) (v : Nat) : (s.setIb v).ib = v := rfl
@[simp] theorem State.setIb_z (s : State) (v : Nat) : (s.setIb v).z = s.z := rfl
@[simp] theorem State.setIb_zv (s : State) (v : Nat) : (s.setIb v).zv = s.zv := rfl
@[simp] theorem State.setIb_maxMsg (s : State) (v : Nat) : (s.setIb v).maxMsg = s.maxMsg := rfl
@[simp] theorem State.setIb_host (s : State) (v : Nat) : (s.setIb v).host = s.host := rfl
@[simp] theorem State.setIb_taken (s : State) (v : Nat) : (s.setIb v).taken = s.taken := rfl

@[simp] theorem State.setZ_lanes (s : State) (v : Digest) : (s.setZ v).lanes = s.lanes := rfl
@[simp] theorem State.setZ_msg (s : State) (v : Digest) : (s.setZ v).msg = s.msg := rfl
@[simp] theorem State.setZ_p (s : State) (v : Digest) : (s.setZ v).p = s.p := rfl
@[simp] theorem State.setZ_ib (s : State) (v : Digest) : (s.setZ v).ib = s.ib := rfl
@[simp] theorem State.setZ_z (s : State) (v : Digest) : (s.setZ v).z = v := rfl
@[simp] theorem State.setZ_zv (s : State) (v : Digest) : (s.setZ v).zv = s.zv := rfl
@[simp] theorem State.setZ_maxMsg (s : State) (v : Digest) : (s.setZ v).maxMsg = s.maxMsg := rfl
@[simp] theorem State.setZ_host (s : State) (v : Digest) : (s.setZ v).host = s.host := rfl
@[simp] theorem State.setZ_taken (s : State) (v : Digest) : (s.setZ v).taken = s.taken := rfl

@[simp] theorem State.setZv_lanes (s : State) (v : Bool) : (s.setZv v).lanes = s.lanes := rfl
@[simp] theorem State.setZv_msg (s : State) (v : Bool) : (s.setZv v).msg = s.msg := rfl
@[simp] theorem State.setZv_p (s : State) (v : Bool) : (s.setZv v).p = s.p := rfl
@[simp] theorem State.setZv_ib (s : State) (v : Bool) : (s.setZv v).ib = s.ib := rfl
@[simp] theorem State.setZv_z (s : State) (v : Bool) : (s.setZv v).z = s.z := rfl
@[simp] theorem State.setZv_zv (s : State) (v : Bool) : (s.setZv v).zv = v := rfl
@[simp] theorem State.setZv_maxMsg (s : State) (v : Bool) : (s.setZv v).maxMsg = s.maxMsg := rfl
@[simp] theorem State.setZv_host (s : State) (v : Bool) : (s.setZv v).host = s.host := rfl
@[simp] theorem State.setZv_taken (s : State) (v : Bool) : (s.setZv v).taken = s.taken := rfl

@[simp] theorem State.setHost_lanes (s : State) (v : List HostAct) : (s.setHost v).lanes = s.lanes := rfl
@[simp] theorem State.setHost_msg (s : State) (v : List HostAct) : (s.setHost v).msg = s.msg := rfl
@[simp] theorem State.setHost_p (s : State) (v : List HostAct) : (s.setHost v).p = s.p := rfl
@[simp] theorem State.setHost_ib (s : State) (v : List HostAct) : (s.setHost v).ib = s.ib := rfl
@[simp] theorem State.setHost_z (s : State) (v : List HostAct) : (s.setHost v).z = s.z := rfl
@[simp] theorem State.setHost_zv (s : State) (v : List HostAct) : (s.setHost v).zv = s.zv := rfl
@[simp] theorem State.setHost_maxMsg (s : State) (v : List HostAct) : (s.setHost v).maxMsg = s.maxMsg := rfl
@[simp] theorem State.setHost_host (s : State) (v : List HostAct) : (s.setHost v).host = v := rfl
@[simp] theorem State.setHost_taken (s : State) (v : List HostAct) : (s.setHost v).taken = s.taken := rfl

@[simp] theorem State.setTaken_lanes (s : State) (v : Option Digest) : (s.setTaken v).lanes = s.lanes := rfl
@[simp] theorem State.setTaken_msg (s : State) (v : Option Digest) : (s.setTaken v).msg = s.msg := rfl
@[simp] theorem State.setTaken_p (s : State) (v : Option Digest) : (s.setTaken v).p = s.p := rfl
@[simp] theorem State.setTaken_ib (s : State) (v : Option Digest) : (s.setTaken v).ib = s.ib := rfl
@[simp] theorem State.setTaken_z (s : State) (v : Option Digest) : (s.setTaken v).z = s.z := rfl
@[simp] theorem State.setTaken_zv (s : State) (v : Option Digest) : (s.setTaken v).zv = s.zv := rfl
@[simp] theorem State.setTaken_maxMsg (s : State) (v : Option Digest) : (s.setTaken v).maxMsg = s.maxMsg := rfl
@[simp] theorem State.setTaken_host (s : State) (v : Option Digest) : (s.setTaken v).host = s.host := rfl
@[simp] theorem State.setTaken_taken (s : State) (v : Option Digest) : (s.setTaken v).taken = v := rfl

end Sys2Proof.Machine
end

