-- ==== Sys2Proof/Laws/Exec.lean ====
section
/-! SUPPORT. What each command does, said once: the next state it answers or the refusal. Later proofs cite these and do
not unfold a meaning. -/

namespace Sys2Proof.Machine

@[simp] theorem exec_theta (s : State) : exec .theta s = .next (s.setLanes (theta s.lanes)) := rfl
@[simp] theorem exec_rhopi (s : State) : exec .rhopi s = .next (s.setLanes (rhopi s.lanes)) := rfl
@[simp] theorem exec_chi (s : State) : exec .chi s = .next (s.setLanes (chi s.lanes)) := rfl
@[simp] theorem exec_keccakf (s : State) : exec .keccakf s = .next (s.setLanes (keccakF s.lanes)) := rfl
@[simp] theorem exec_absorb (s : State) :
    exec .absorb s = .next ((s.setLanes (absorb s.lanes s.p s.ib)).setIb (max s.ib (nblocks s.p))) := rfl
@[simp] theorem exec_init (s : State) : exec .init s = .next (((s.setLanes zeroLanes).setIb 0).setZv false) := rfl
@[simp] theorem exec_squeeze (s : State) : exec .squeeze s = .next ((s.setZ (squeeze s.lanes)).setZv true) := rfl

theorem exec_iota {ir : BitVec 8} (h : ir.toNat < 24) (s : State) :
    exec (.iota ir) s = .next (s.setLanes (iota s.lanes ⟨ir.toNat, h⟩)) := by
  simp only [exec, execIota, updateLanesAtRound, roundIndex_of_lt h, updateLanes]

theorem exec_round {ir : BitVec 8} (h : ir.toNat < 24) (s : State) :
    exec (.round ir) s = .next (s.setLanes (keccakRound s.lanes ⟨ir.toNat, h⟩)) := by
  simp only [exec, execRound, updateLanesAtRound, roundIndex_of_lt h, updateLanes]

theorem exec_pad {s : State} (h : messageTooLong s = false) :
    exec .pad s = .next ((s.setP (pad s.msg)).setIb 0) := by
  simp [exec, execPad, h]

theorem exec_xorin {s : State} {bk : Block} (h : blockAt s.p s.ib = some bk) :
    exec .xorin s = .next (s.setLanes (xorBlock s.lanes bk)) := by
  simp only [exec, execXorin, h]

theorem exec_absorbblk {s : State} {bk : Block} (h : blockAt s.p s.ib = some bk) :
    exec .absorbblk s = .next ((s.setLanes (absorbBlock s.lanes bk)).setIb (s.ib + 1)) := by
  simp only [exec, execAbsorbblk, h]

/-- The state HASH leaves, field by field. -/
def hashedState (s : State) : State :=
  ((((s.setLanes (absorb zeroLanes (pad s.msg) 0)).setP (pad s.msg)).setIb (nblocks (pad s.msg))).setZ
    (sha3_256 s.msg)).setZv true

theorem exec_hash {s : State} (h : messageTooLong s = false) : exec .hash s = .next (hashedState s) := by
  simp only [exec, execHash, h, hashedState]
  rfl

theorem exec_iota_refused {ir : BitVec 8} (h : 24 ≤ ir.toNat) (s : State) :
    exec (.iota ir) s = .refused .operandRange := by
  simp only [exec, execIota, updateLanesAtRound, roundIndex_of_ge h, refuse]

theorem exec_round_refused {ir : BitVec 8} (h : 24 ≤ ir.toNat) (s : State) :
    exec (.round ir) s = .refused .operandRange := by
  simp only [exec, execRound, updateLanesAtRound, roundIndex_of_ge h, refuse]

theorem exec_pad_refused {s : State} (h : messageTooLong s = true) : exec .pad s = .refused .tooLong := by
  simp [exec, execPad, h, refuse]

theorem exec_hash_refused {s : State} (h : messageTooLong s = true) : exec .hash s = .refused .tooLong := by
  simp [exec, execHash, h, refuse]

theorem exec_xorin_refused {s : State} (h : nblocks s.p ≤ s.ib) : exec .xorin s = .refused .noBlock := by
  simp only [exec, execXorin, blockAt_of_ge h, refuse]

theorem exec_absorbblk_refused {s : State} (h : nblocks s.p ≤ s.ib) : exec .absorbblk s = .refused .noBlock := by
  simp only [exec, execAbsorbblk, blockAt_of_ge h, refuse]

/-- Everything a command can do when it answers a next state. -/
theorem exec_next_cases {i : Instr} {s t : State} (h : exec i s = .next t) :
    (∃ a, t = s.setLanes a ∧ i ∈ [Instr.theta, .rhopi, .chi, .keccakf]) ∨
    (∃ ir, i = .iota ir ∧ ∃ hir : ir.toNat < 24, t = s.setLanes (iota s.lanes ⟨ir.toNat, hir⟩)) ∨
    (∃ ir, i = .round ir ∧ ∃ hir : ir.toNat < 24, t = s.setLanes (keccakRound s.lanes ⟨ir.toNat, hir⟩)) ∨
    (i = .pad ∧ messageTooLong s = false ∧ t = (s.setP (pad s.msg)).setIb 0) ∨
    (i = .init ∧ t = ((s.setLanes zeroLanes).setIb 0).setZv false) ∨
    (i = .xorin ∧ ∃ bk, blockAt s.p s.ib = some bk ∧ t = s.setLanes (xorBlock s.lanes bk)) ∨
    (i = .absorbblk ∧ ∃ bk, blockAt s.p s.ib = some bk ∧
      t = (s.setLanes (absorbBlock s.lanes bk)).setIb (s.ib + 1)) ∨
    (i = .absorb ∧ t = (s.setLanes (absorb s.lanes s.p s.ib)).setIb (max s.ib (nblocks s.p))) ∨
    (i = .squeeze ∧ t = (s.setZ (squeeze s.lanes)).setZv true) ∨
    (i = .hash ∧ messageTooLong s = false ∧ t = hashedState s) := by
  have next_inj : ∀ {u v : State}, (.next u : Result) = .next v → v = u := fun e => by cases e; rfl
  cases i with
  | theta => exact .inl ⟨_, next_inj h, by simp⟩
  | rhopi => exact .inl ⟨_, next_inj h, by simp⟩
  | chi => exact .inl ⟨_, next_inj h, by simp⟩
  | keccakf => exact .inl ⟨_, next_inj h, by simp⟩
  | iota ir =>
    by_cases hir : ir.toNat < 24
    · rw [exec_iota hir] at h; exact .inr (.inl ⟨ir, rfl, hir, next_inj h⟩)
    · rw [exec_iota_refused (by omega)] at h; cases h
  | round ir =>
    by_cases hir : ir.toNat < 24
    · rw [exec_round hir] at h; exact .inr (.inr (.inl ⟨ir, rfl, hir, next_inj h⟩))
    · rw [exec_round_refused (by omega)] at h; cases h
  | pad =>
    cases hm : messageTooLong s with
    | false => rw [exec_pad hm] at h; simp [next_inj h]
    | true => rw [exec_pad_refused hm] at h; cases h
  | init => rw [exec_init] at h; simp [next_inj h]
  | xorin =>
    cases hb : blockAt s.p s.ib with
    | some bk => rw [exec_xorin hb] at h; simp [next_inj h]
    | none => simp [exec, execXorin, hb, refuse] at h
  | absorbblk =>
    cases hb : blockAt s.p s.ib with
    | some bk => rw [exec_absorbblk hb] at h; simp [next_inj h]
    | none => simp [exec, execAbsorbblk, hb, refuse] at h
  | absorb => simp [next_inj h]
  | squeeze => rw [exec_squeeze] at h; simp [next_inj h]
  | hash =>
    cases hm : messageTooLong s with
    | false => rw [exec_hash hm] at h; simp [next_inj h]
    | true => rw [exec_hash_refused hm] at h; cases h

/-- Everything a step can do: wait, or perform the host's next move. -/
theorem step_cases (s : State) :
    (s.host = [] ∧ step s = .next s) ∨
    (∃ act rest, s.host = act :: rest ∧ step s = perform act (s.setHost rest)) := by
  cases h : s.host with
  | nil => exact .inl ⟨rfl, by simp [step, nextMove, h]⟩
  | cons act rest => exact .inr ⟨act, rest, rfl, by simp [step, nextMove, h]⟩

end Sys2Proof.Machine
end

