-- ==== Sys2Proof/Laws/PerInstr.lean ====
section
/-! SUPPORT. Per-command facts about the encoding, one lemma per constructor of Instr (LAWS.json). -/

namespace Sys2Proof

theorem opcField_append (o a : BitVec 8) : opcField (o ++ a) = o := by
  ext i hi
  have happ := BitVec.getLsbD_append (x := o) (y := a) (i := 8 + i)
  simp only [opcField, BitVec.getElem_extractLsb', happ]
  simp [BitVec.getLsbD_eq_getElem hi]

theorem argField_append (o a : BitVec 8) : argField (o ++ a) = a := by
  ext i hi
  have happ := BitVec.getLsbD_append (x := o) (y := a) (i := 0 + i)
  simp only [argField, BitVec.getElem_extractLsb', happ]
  simp [hi]

end Sys2Proof

namespace Sys2Proof.Laws.EncodingFields

/-- The two fields of a command's word are its opcode and its argument (R81), and the opcode is one of the map (R82). -/
def Statement (i : Instr) : Prop :=
  opcField (encode i) = opcodeOf i ∧ argField (encode i) = argumentOf i ∧
    1 ≤ (opcodeOf i).toNat ∧ (opcodeOf i).toNat ≤ 13

theorem fields (i : Instr) : opcField (encode i) = opcodeOf i ∧ argField (encode i) = argumentOf i :=
  ⟨opcField_append _ _, argField_append _ _⟩

theorem theta : Statement .theta := ⟨(fields _).1, (fields _).2, by decide, by decide⟩
theorem rhopi : Statement .rhopi := ⟨(fields _).1, (fields _).2, by decide, by decide⟩
theorem chi : Statement .chi := ⟨(fields _).1, (fields _).2, by decide, by decide⟩
theorem iota (ir : BitVec 8) : Statement (.iota ir) := ⟨(fields _).1, (fields _).2, by simp [opcodeOf], by simp [opcodeOf]⟩
theorem round (ir : BitVec 8) : Statement (.round ir) := ⟨(fields _).1, (fields _).2, by simp [opcodeOf], by simp [opcodeOf]⟩
theorem keccakf : Statement .keccakf := ⟨(fields _).1, (fields _).2, by decide, by decide⟩
theorem pad : Statement .pad := ⟨(fields _).1, (fields _).2, by decide, by decide⟩
theorem init : Statement .init := ⟨(fields _).1, (fields _).2, by decide, by decide⟩
theorem xorin : Statement .xorin := ⟨(fields _).1, (fields _).2, by decide, by decide⟩
theorem absorbblk : Statement .absorbblk := ⟨(fields _).1, (fields _).2, by decide, by decide⟩
theorem absorb : Statement .absorb := ⟨(fields _).1, (fields _).2, by decide, by decide⟩
theorem squeeze : Statement .squeeze := ⟨(fields _).1, (fields _).2, by decide, by decide⟩
theorem hash : Statement .hash := ⟨(fields _).1, (fields _).2, by decide, by decide⟩

end Sys2Proof.Laws.EncodingFields
end

