-- ==== Sys2Proof/Laws/Runs.lean ====
section
/-! SUPPORT. Runs of several commands: runCommands taken apart. -/

namespace Sys2Proof.Machine

@[simp] theorem runCommands_nil (s : State) : runCommands [] s = .next s := rfl

/-- A command that completes hands its state to the rest. -/
theorem runCommands_cons {i : Instr} {s t : State} (h : exec i s = .next t) (rest : List Instr) :
    runCommands (i :: rest) s = runCommands rest t := by
  simp only [runCommands, h]

/-- A first part that completes hands its state to the second. -/
theorem runCommands_append {first : List Instr} {s t : State} (h : runCommands first s = .next t) (rest : List Instr) :
    runCommands (first ++ rest) s = runCommands rest t := by
  induction first generalizing s with
  | nil =>
    cases h
    rfl
  | cons i first ih =>
    cases he : exec i s with
    | next u =>
      rw [runCommands_cons he] at h
      rw [List.cons_append, runCommands_cons he]
      exact ih h
    | fault f => simp [runCommands, he] at h
    | refused r => simp [runCommands, he] at h

end Sys2Proof.Machine
end

