-- ==== Sys2Proof/Tests/Slice0.lean ====
section
/-! SUPPORT. Tests of the model on single steps, expected values from spec/95_test_vectors.md (vector ids in the comments),
and the witnesses that the hypotheses of the statements are met. -/

open Sys2Proof Sys2Proof.Machine Sys2Proof.Spec

namespace Sys2Proof.Tests

/-- One reading of the state a command leaves; none when it leaves none. -/
def after {α : Type} (r : Result) (f : State → α) : Option α :=
  match r with
  | .next t => some (f t)
  | .fault _ => none
  | .refused _ => none

/-- The lanes with the given word indexes set, all others 0. -/
def lanesWith (l : List (Fin 25 × Lane)) : Lanes := l.foldl (fun a c => a.set c.1.val c.2) zeroLanes

/-- The reset state with the given lanes. -/
def withLanes (a : Lanes) : State := { State.reset with lanes := a }

/-- The reset state with a message in `MSG`. -/
def withMsg (m : ByteSpace) : State := { State.reset with msg := m }

/-- The reset state after `PAD` of a message. -/
def padded (m : ByteSpace) : State := { State.reset with msg := m, p := pad m }

def abc : ByteSpace := [0x61, 0x62, 0x63]

/-- A build that accepts at most two message bytes. -/
def bounded (s : State) : State := { s with maxMsg := some 2 }

/-! ### Syntax and decoding -/

theorem test_wellFormed_refuses_iota_24 : WellFormed (.iota 24) = false := by decide
theorem test_wellFormed_refuses_round_255 : WellFormed (.round 255) = false := by decide
theorem test_wellFormed_accepts_23 : WellFormed (.iota 23) = true ∧ WellFormed (.round 23) = true := by decide

-- E1 to E5, E8, E9, E11
theorem test_decode_permutation :
    decode 0b0000000100000000 = .ok .theta ∧ decode 0b0000001000000000 = .ok .rhopi ∧
    decode 0b0000001100000000 = .ok .chi ∧ decode 0b0000010000000000 = .ok (.iota 0) ∧
    decode 0b0000010000010111 = .ok (.iota 23) ∧ decode 0b0000010100000101 = .ok (.round 5) ∧
    decode 0b0000010100010111 = .ok (.round 23) ∧ decode 0b0000011000000000 = .ok .keccakf := by decide
-- E13
theorem test_decode_padding : decode 0b0000011100000000 = .ok .pad := by decide
-- E14 to E18
theorem test_decode_sponge :
    decode 0b0000100000000000 = .ok .init ∧ decode 0b0000100100000000 = .ok .xorin ∧
    decode 0b0000101000000000 = .ok .absorbblk ∧ decode 0b0000101100000000 = .ok .absorb ∧
    decode 0b0000110000000000 = .ok .squeeze := by decide
-- E19
theorem test_decode_hash : decode 0b0000110100000000 = .ok .hash := by decide
-- E6, E7, E10
theorem test_decode_refuses_range :
    decode 0x0418 = .error .operandRange ∧ decode 0x04FF = .error .operandRange ∧
    decode 0x0518 = .error .operandRange := by decide
-- E12, E20 to E25
theorem test_decode_refuses_illegal :
    decode 0x0618 = .error .illegalCommand ∧ decode 0x0D01 = .error .illegalCommand ∧
    decode 0x0000 = .error .illegalCommand ∧ decode 0x0001 = .error .illegalCommand ∧
    decode 0x0E00 = .error .illegalCommand ∧ decode 0xFFFF = .error .illegalCommand ∧
    decode 0x0101 = .error .illegalCommand := by decide
-- R89
theorem test_encode_examples : encode (.round 5) = 0x0505 ∧ encode .hash = 0x0D00 := by decide
theorem test_decodeTableWord : decodeTableWord 16 0x0A00 = some .absorbblk ∧ decodeTableWord 16 0x0418 = none := by
  decide
-- the table's rows of format R with ir at both ends
theorem test_withFetchWord_runs_the_word :
    after (step (State.reset.withFetchWord 16 0x040C)) (fun t => (laneAt t.lanes 0 0, t.host)) =
      some (0x000000008000808B, []) := by decide +kernel

/-! ### One command on a small state -/

-- T2: bit 63 wraps to bit 0
theorem test_theta :
    after (exec .theta (withLanes (lanesWith [(17, 0x8000000000000000)])))
      (fun t => (laneAt t.lanes 2 3, laneAt t.lanes 3 0, laneAt t.lanes 1 4, laneAt t.lanes 0 0)) =
      some (0x8000000000000000, 0x8000000000000000, 0x0000000000000001, 0) := by decide +kernel
-- T5: offsets and destinations
theorem test_rhopi :
    after (exec .rhopi (withLanes (Vector.replicate 25 1)))
      (fun t => (t.lanes[1], t.lanes[5], t.lanes[9], t.lanes[20])) =
      some (0x0000100000000000, 0x0000000010000000, 0x2000000000000000, 0x4000000000000000) := by decide +kernel
-- T7: the snapshot
theorem test_chi :
    after (exec .chi (withLanes (lanesWith [(0, 1), (1, 3), (2, 6), (3, 0xC), (4, 0xFFFFFFFFFFFFFFFF)])))
      (fun t => (t.lanes[0], t.lanes[2], t.lanes[4])) =
      some (0x5, 0xFFFFFFFFFFFFFFF5, 0xFFFFFFFFFFFFFFFD) := by decide +kernel
-- T10
theorem test_iota :
    after (exec (.iota 1) (withLanes (lanesWith [(0, 1), (1, 7)]))) (fun t => (t.lanes[0], t.lanes[1])) =
      some (0x0000000000008083, 7) := by decide +kernel
-- T12: ROUND 1 on the state ROUND 0 leaves from zero
theorem test_round :
    after (exec (.round 1) (withLanes (lanesWith [(0, 1)])))
      (fun t => (t.lanes[0], t.lanes[4], t.lanes[13], t.lanes[22])) =
      some (0x8083, 0x0000100000008000, 0x0000000000000202, 0x0000010000000004) := by decide +kernel
-- V4
theorem test_keccakf :
    after (exec .keccakf State.reset) (fun t => (t.lanes[0], t.lanes[24])) =
      some (0xF1258F7940E1DDE7, 0xEAF1FF7B5CECA249) := by decide +kernel
-- Q11
theorem test_pad_abc :
    after (exec .pad (withMsg abc)) (fun t => (t.p.length, byteAt t.p 3, byteAt t.p 4, byteAt t.p 135)) =
      some (136, some 0x06, some 0x00, some 0x80) := by decide +kernel
-- Q4
theorem test_pad_one_byte_of_padding :
    after (exec .pad (withMsg (List.replicate 135 0x61))) (fun t => (t.p.length, byteAt t.p 135)) =
      some (136, some 0x86) := by decide +kernel
-- X6
theorem test_init :
    after (exec .init { padded abc with lanes := lanesWith [(24, 5)], ib := 1, zv := true })
      (fun t => (t.lanes[24], t.ib, t.zv, t.p.length)) = some (0, 0, false, 136) := by decide +kernel
-- V1 step 2
theorem test_xorin :
    after (exec .xorin (padded abc)) (fun t => (t.lanes[0], t.lanes[16], t.lanes[17], t.ib)) =
      some (0x0000000006636261, 0x8000000000000000, 0, 0) := by decide +kernel
-- PR5 command 2
theorem test_xorin_without_a_block : exec .xorin State.reset = .refused .noBlock := by rfl
-- V1: ABSORBBLK advances the block pointer
theorem test_absorbblk : after (exec .absorbblk (padded abc)) (fun t => (t.ib, t.zv)) = some (1, false) := by
  decide +kernel
-- PR5 command 10
theorem test_absorbblk_without_a_block : exec .absorbblk { padded abc with ib := 1 } = .refused .noBlock :=
  exec_absorbblk_refused (by decide +kernel)
-- PR3 dump (b)
theorem test_absorb_two_blocks :
    after (exec .absorb (padded (List.replicate 136 0x61))) (fun t => (t.lanes[0], t.lanes[24], t.ib)) =
      some (0x458EDB149F55C53F, 0x42CA6A37F8BF3E8D, 2) := by decide +kernel
-- X4
theorem test_squeeze :
    after (exec .squeeze (withLanes (lanesWith [(0, 0xB225E24FA75D983A), (3, 0x3215431145E2BF46)])))
      (fun t => (t.z[0], t.z[7], t.z[24], t.z[31], t.zv)) = some (0x3a, 0xb2, 0x46, 0x32, true) := by decide +kernel
-- V1, the digest the source prints
theorem test_hash_abc :
    after (exec .hash (withMsg abc)) (fun t => t.z.toList) = some
      [0x3a, 0x98, 0x5d, 0xa7, 0x4f, 0xe2, 0x25, 0xb2, 0x04, 0x5c, 0x17, 0x2d, 0x6b, 0xd3, 0x90, 0xbd,
       0x85, 0x5f, 0x08, 0x6e, 0x3e, 0x9d, 0x52, 0x5b, 0x46, 0xbf, 0xe2, 0x45, 0x11, 0x43, 0x15, 0x32] := by
  decide +kernel
-- PR1: the empty message of V2 is one block
theorem test_hash_empty : after (exec .hash State.reset) (fun t => (t.ib, t.zv, t.p.length)) = some (1, true, 136) := by
  decide +kernel
-- 92_eei_decisions.md D4
theorem test_bounded_build_refuses : exec .pad (bounded (withMsg abc)) = .refused .tooLong := by rfl
-- PR5 command 1, R198
theorem test_step_refuses_the_zero_word :
    step { State.reset with host := [.command 0x0000] } = .refused .illegalCommand := by rfl
theorem test_read_of_an_invalid_digest_faults :
    step { State.reset with host := [.readDigest] } = .fault .digestNotValid := by rfl

/-! ### The hypotheses of the statements are met

One witness per set of hypotheses; where statements share theirs, the comment above the witness names them. -/

theorem witness_DecodeOfEncodeIsIdentity : WellFormed (.round 23) = true := by decide
theorem witness_EncodeOfDecodeIsIdentity : decode 0x0417 = .ok (.iota 23) := by decide
theorem witness_DecoderFollowsTheOpcodeMap :
    (0x0D, Instr.hash) ∈ formatNMap ∧ (0x0D : Nat) < 256 ∧ (0x0E : Nat) ≤ 255 ∧ (255 : Nat) < 256 := by decide
theorem witness_RotateLeftMovesBits : (63 : Nat) < 64 := by decide
-- ThetaCornerCases, RhopiCornerCases, ChiCornerCases, RoundIsItsFourSteps
theorem witness_zero_lanes (x y : Fin 5) : laneAt State.reset.lanes x y = 0 := laneAt_zeroLanes x y
-- ThetaCornerCases, RhopiCornerCases, ChiCornerCases
theorem witness_all_ones_lanes :
    ∀ x y, laneAt (withLanes (Vector.replicate 25 0xFFFFFFFFFFFFFFFF)).lanes x y = 0xFFFFFFFFFFFFFFFF := by
  decide +kernel
theorem witness_ThetaCornerCases_single_lane :
    ∀ x y, laneAt (withLanes (lanesWith [(24, 7)])).lanes x y = if x = 4 ∧ y = 4 then 7 else 0 := by decide +kernel
theorem witness_RhopiRotatesAndMoves : (24, 14, 4) ∈ printedRhopi := by decide
theorem witness_PiIsOneCycleOfTwentyFour : 0 < 23 ∧ 23 < 24 ∧ ¬((4 : Fin 5) = 0 ∧ (0 : Fin 5) = 0) := by decide
theorem witness_ChiCornerCases_single_lane :
    ∀ x, laneAt (withLanes (lanesWith [(7, 0xF0)])).lanes x 1 = if x = 2 then 0xF0 else 0 := by decide +kernel
theorem witness_IotaXorsTheRoundConstant :
    (23 : BitVec 8).toNat < 24 ∧ ((23 : BitVec 8).toNat, 0x8000000080008008) ∈ printedRC ∧
      24 ≤ (24 : BitVec 8).toNat := by decide
theorem witness_IotaCornerCases : (0 : BitVec 8).toNat < 24 := by decide
theorem witness_RoundIsItsFourSteps :
    (0 : BitVec 8).toNat < 24 ∧ ((0 : BitVec 8).toNat, 1) ∈ printedRC ∧ 24 ≤ (255 : BitVec 8).toNat := by decide
theorem witness_PermutationFamilyIsAFunctionOfTheLanes :
    permutationFamily (.round 23) ∧ WellFormed (.round 23) = true ∧ (withMsg abc).lanes = State.reset.lanes :=
  ⟨.inr (.inr (.inr (.inr (.inl ⟨23, rfl⟩)))), rfl, rfl⟩
-- R144's boundary lengths
theorem witness_PaddingBytesByResidue :
    (List.replicate 135 (0 : Byte)).length = 135 ∧ (List.replicate 136 (0 : Byte)).length = 136 ∧
      (List.replicate 137 (0 : Byte)).length = 137 := ⟨List.length_replicate, List.length_replicate, List.length_replicate⟩
-- PadBuildsThePaddedMessage, HashIsInitPadAbsorbSqueeze, HashIsOneAbsorbblkPerBlock, HostGetsTheDigestOfItsMessage
theorem witness_message_accepted_unbounded : ∀ b, (withMsg abc).maxMsg = some b → (withMsg abc).msg.length ≤ b := by
  intro b h
  cases h
-- the same, at the bound of a build that has one
theorem witness_message_accepted_at_the_bound :
    ∀ b, (bounded (withMsg [1, 2])).maxMsg = some b → (bounded (withMsg [1, 2])).msg.length ≤ b := by
  intro b h
  cases h
  exact Nat.le_refl 2
theorem witness_TooLongExactlyAboveTheBound :
    ∃ b, (bounded (withMsg abc)).maxMsg = some b ∧ b < (bounded (withMsg abc)).msg.length := ⟨2, rfl, by decide⟩
-- XorinXorsTheBlockIntoTheRateLanes, XorinTwiceRestores, AbsorbblkIsXorinThenKeccakf, EveryBlockIsFull
theorem witness_block_exists : (padded abc).ib < nblocks (padded abc).p := by decide +kernel
-- XorinXorsTheBlockIntoTheRateLanes, AbsorbblkIsXorinThenKeccakf, AbsorbIsAbsorbblkForEveryBlockLeft
theorem witness_no_block_left : nblocks (padded abc).p ≤ { padded abc with ib := 1 }.ib := by decide +kernel
theorem witness_XorinXorsTheBlockIntoTheRateLanes : (16 : Fin 25).val < 17 ∧ 17 ≤ (17 : Fin 25).val := by decide
theorem witness_BlockBitsMeetLaneBits :
    (∃ t, exec .xorin (padded abc) = .next t) ∧ byteAt (padded abc).p (136 * (padded abc).ib + 135) = some 0x80 :=
  ⟨⟨_, exec_xorin (Option.get_mem (by decide +kernel))⟩, by decide +kernel⟩
-- BlockPointerRule, EveryBlockIsFull
theorem witness_invariant : EngineInv (padded abc) :=
  ⟨.inr ⟨abc, rfl, fun b h => by cases h⟩, Nat.zero_le _⟩
-- BlockPointerRule, InitPadSqueezeAreIdempotent, HashTwiceIsHashOnce
theorem witness_BlockPointerRule_commands :
    (∃ t, exec .init (padded abc) = .next t) ∧ (∃ t, exec .pad (padded abc) = .next t) ∧
    (∃ t, exec .xorin (padded abc) = .next t) ∧ (∃ t, exec .theta (padded abc) = .next t) ∧
    (∃ t, exec .absorbblk (padded abc) = .next t) ∧ (∃ t, exec .absorb (padded abc) = .next t) ∧
    (∃ t, exec .squeeze (padded abc) = .next t) ∧ (∃ t, exec .hash (padded abc) = .next t) :=
  ⟨⟨_, exec_init _⟩, ⟨_, exec_pad rfl⟩, ⟨_, exec_xorin (Option.get_mem (by decide +kernel))⟩, ⟨_, rfl⟩,
    ⟨_, exec_absorbblk (Option.get_mem (by decide +kernel))⟩, ⟨_, exec_absorb _⟩,
    ⟨_, exec_squeeze _⟩, ⟨_, exec_hash rfl⟩⟩
theorem witness_BlockPointerRule_blocks : 1 < (List.replicate 272 (0 : Byte)).length / 136 := by decide +kernel
theorem witness_HashForgetsEarlierState :
    (padded abc).msg = (withMsg abc).msg ∧ (padded abc).maxMsg = (withMsg abc).maxMsg ∧
      ∃ t, exec .hash (withMsg abc) = .next t := ⟨rfl, rfl, _, exec_hash rfl⟩
theorem witness_HostGetsTheDigestOfItsMessage :
    { State.reset with host := [.writeMessage abc, .command 0x0D00, .readDigest] }.host =
      .writeMessage abc :: .command 0x0D00 :: .readDigest :: [] := rfl
theorem witness_CommandsWriteOnlyWhatTheTableSays : ∃ t, exec (.iota 23) State.reset = .next t :=
  ⟨_, exec_iota (by decide) _⟩
theorem witness_ReservedWordsAreRefused :
    { State.reset with host := [.command (cmdOf 0x05 24)] }.host = .command (cmdOf 0x05 24) :: [] ∧
    { State.reset with host := [.command (cmdOf 0x0D 1)] }.host = .command (cmdOf 0x0D 1) :: [] := ⟨rfl, rfl⟩
theorem witness_AfterARefusalTheEngineGoesOn :
    step { State.reset with host := [.command 0x0E00, .command 0x0800] } = .refused .illegalCommand := by rfl
theorem witness_StepPerformsTheDecodedCommand :
    { State.reset with host := [.command 0x0700, .readDigest] }.host = .command 0x0700 :: [.readDigest] ∧
      decode 0x0700 = .ok .pad := ⟨rfl, by decide⟩
theorem witness_OnlyAnInvalidDigestReadFaults :
    { State.reset with host := [.readDigest] }.host = .readDigest :: [] ∧ State.reset.zv = false ∧
    { State.reset with host := [.readDigest], zv := true }.zv = true := ⟨rfl, rfl, rfl⟩
theorem witness_HostMessageWriteChangesOnlyMsg :
    { State.reset with host := [.writeMessage abc] }.host = .writeMessage abc :: [] := rfl
theorem witness_ResetLeavesTheResetValues :
    { padded abc with host := [.reset abc resetDigest] }.host = .reset abc resetDigest :: [] := rfl
theorem witness_EngineWaitsForACommand : State.reset.host = [] := rfl
theorem witness_StepKeepsTheInvariant :
    EngineInv { padded abc with host := [.command 0x0A00] } ∧
      ∃ t, step { padded abc with host := [.command 0x0A00] } = .next t :=
  ⟨witness_invariant, _, exec_absorbblk (s := padded abc) (Option.get_mem (by decide +kernel))⟩
theorem witness_StepNeverChangesTheBuild : ∃ t, step (bounded State.reset) = .next t := ⟨_, rfl⟩

end Sys2Proof.Tests
end

section
/-! SUPPORT. Facts that build on Laws/: the bits of the rotation, the frame of commands and of the host's moves, and one
rule per kind of step. -/

namespace Sys2Proof.Machine

/-! ### The rotation -/

/-- A bit that the rotation does not carry past the top moves up by the offset. -/
theorem getLsbD_rotl64_of_lt (v : Lane) (n : Fin 64) {i : Nat} (h : i + n.val < 64) :
    (rotl64 v n).getLsbD (i + n.val) = v.getLsbD i := by
  rw [rotl64_eq_rotateLeft, BitVec.getLsbD_rotateLeft_of_le n.isLt]
  simp [h]

/-- A bit that the rotation carries past the top comes in again from below. -/
theorem getLsbD_rotl64_of_ge (v : Lane) (n : Fin 64) {i : Nat} (hi : i < 64) (h : 64 ≤ i + n.val) :
    (rotl64 v n).getLsbD (i + n.val - 64) = v.getLsbD i := by
  have hlow : i + n.val - 64 < n.val := by omega
  have hsource : 64 - n.val + (i + n.val - 64) = i := by omega
  rw [rotl64_eq_rotateLeft, BitVec.getLsbD_rotateLeft_of_le n.isLt]
  simp [hlow, hsource]

/-! ### The accepted message, and the state HASH leaves, field by field -/

/-- A message is accepted when no bound of the build is below its length (R140). -/
theorem messageTooLong_eq_false_iff (s : State) :
    messageTooLong s = false ↔ ∀ b, s.maxMsg = some b → s.msg.length ≤ b := by
  rw [← Bool.not_eq_true, messageTooLong_iff]
  simp

@[simp] theorem hashedState_lanes (s : State) : (hashedState s).lanes = absorb zeroLanes (pad s.msg) 0 := rfl
@[simp] theorem hashedState_msg (s : State) : (hashedState s).msg = s.msg := rfl
@[simp] theorem hashedState_p (s : State) : (hashedState s).p = pad s.msg := rfl
@[simp] theorem hashedState_ib (s : State) : (hashedState s).ib = nblocks (pad s.msg) := rfl
@[simp] theorem hashedState_z (s : State) : (hashedState s).z = sha3_256 s.msg := rfl
@[simp] theorem hashedState_zv (s : State) : (hashedState s).zv = true := rfl
@[simp] theorem hashedState_maxMsg (s : State) : (hashedState s).maxMsg = s.maxMsg := rfl
@[simp] theorem hashedState_host (s : State) : (hashedState s).host = s.host := rfl
@[simp] theorem hashedState_taken (s : State) : (hashedState s).taken = s.taken := rfl

/-! ### What commands and host moves leave unchanged -/

/-- The state the engine never writes: the message (R36), the build's bound (R8) and the host's side. -/
theorem exec_keeps_host_side {i : Instr} {s t : State} (h : exec i s = .next t) :
    t.msg = s.msg ∧ t.maxMsg = s.maxMsg ∧ t.host = s.host ∧ t.taken = s.taken := by
  rcases exec_next_cases h with ⟨_, rfl, _⟩ | ⟨_, _, _, rfl⟩ | ⟨_, _, _, rfl⟩ | ⟨_, _, rfl⟩ | ⟨_, rfl⟩ |
    ⟨_, _, _, rfl⟩ | ⟨_, _, _, rfl⟩ | ⟨_, rfl⟩ | ⟨_, rfl⟩ | ⟨_, _, rfl⟩ <;> simp

theorem issue_of_decode {w : CmdWord} {i : Instr} (h : decode w = .ok i) (s : State) : issue w s = exec i s := by
  simp only [issue, h]

/-- A command word that is performed spells a command, and what it does is that command. -/
theorem exec_of_issue_next {w : CmdWord} {s t : State} (h : issue w s = .next t) :
    ∃ i, decode w = .ok i ∧ exec i s = .next t := by
  cases hd : decode w with
  | ok i => exact ⟨i, rfl, by rwa [issue_of_decode hd] at h⟩
  | error e => simp [issue, hd, refuse] at h

theorem readDigest_of_valid {s : State} (h : s.zv = true) : readDigest s = .next (s.setTaken (some s.z)) := if_pos h

theorem readDigest_of_invalid {s : State} (h : s.zv = false) : readDigest s = .fault .digestNotValid := by
  simp [readDigest, h]

theorem perform_keeps_maxMsg {act : HostAct} {s t : State} (h : perform act s = .next t) : t.maxMsg = s.maxMsg := by
  cases act with
  | command w =>
    obtain ⟨i, -, hexec⟩ := exec_of_issue_next h
    obtain ⟨-, hmax, -, -⟩ := exec_keeps_host_side hexec
    exact hmax
  | writeMessage m => cases h; rfl
  | readDigest =>
    cases hzv : s.zv with
    | true => cases (readDigest_of_valid hzv).symm.trans h; rfl
    | false => cases (readDigest_of_invalid hzv).symm.trans h
  | reset m d => cases h; rfl

/-! ### Steps and runs -/

theorem step_of_move {s : State} {act : HostAct} {rest : List HostAct} (h : s.host = act :: rest) :
    step s = perform act (s.setHost rest) := by
  obtain ⟨hnil, -⟩ | ⟨act', rest', hcons, hmove⟩ := step_cases s
  · cases h.symm.trans hnil
  · cases h.symm.trans hcons
    exact hmove

theorem step_writeMessage {s : State} {m : ByteSpace} {rest : List HostAct} (h : s.host = .writeMessage m :: rest) :
    step s = .next ((s.setHost rest).setMsg m) := step_of_move h

theorem step_command {s : State} {w : CmdWord} {rest : List HostAct} {i : Instr} (h : s.host = .command w :: rest)
    (hd : decode w = .ok i) : step s = exec i (s.setHost rest) :=
  (step_of_move h).trans (issue_of_decode hd _)

theorem step_readDigest {s : State} {rest : List HostAct} (h : s.host = .readDigest :: rest) (hzv : s.zv = true) :
    step s = .next ((s.setHost rest).setTaken (some s.z)) :=
  (step_of_move h).trans (readDigest_of_valid hzv)

/-- A step that answers a next state hands it to the rest of the run. -/
theorem run_succ_of_step {s t : State} (h : step s = .next t) (k : Nat) :
    Host.Core.run Sys2Proof.core (k + 1) s = Host.Core.run Sys2Proof.core k t := by
  have hcore : Sys2Proof.core.step s = .next t := h
  simp only [Host.Core.run, hcore]

/-- The word 0x0D00 on an accepted message: the digest of it is there and valid. -/
theorem step_hash {s : State} {rest : List HostAct} (h : s.host = .command 0x0D00 :: rest)
    (hlen : ∀ b, s.maxMsg = some b → s.msg.length ≤ b) : step s = .next (hashedState (s.setHost rest)) := by
  have hdecode : decode 0x0D00 = .ok .hash := by decide
  have hfits : messageTooLong (s.setHost rest) = false := (messageTooLong_eq_false_iff _).mpr hlen
  exact (step_command h hdecode).trans (exec_hash hfits)

/-- `HASH` and then a read, on an accepted message: what the host takes is the digest of it (R19). -/
theorem run_hash_readDigest {s : State} {rest : List HostAct} (h : s.host = .command 0x0D00 :: .readDigest :: rest)
    (hlen : ∀ b, s.maxMsg = some b → s.msg.length ≤ b) :
    Host.Core.run Sys2Proof.core 2 s =
      .next (((hashedState (s.setHost (.readDigest :: rest))).setHost rest).setTaken (some (sha3_256 s.msg))) := by
  rw [run_succ_of_step (step_hash h hlen), run_succ_of_step (step_readDigest rfl rfl), hashedState_z,
    State.setHost_msg]
  rfl

end Sys2Proof.Machine
end

section
/-! The statements of the scope family (spec/00_scope.md): the rotation R11, the fixed build parameter R8, and the contract
R19 between a host and the engine. -/

namespace Sys2Proof.Machine

/-- Settles O7: bit `i` either stays below bit 64 or wraps around once. -/
theorem rotateLeftMovesBits : Obligations.RotateLeftMovesBits := by
  intro v n i hi
  by_cases h : i + n.val < 64
  · rw [Nat.mod_eq_of_lt h, getLsbD_rotl64_of_lt v n h]
  · have hge : 64 ≤ i + n.val := Nat.le_of_not_lt h
    have hwrap : (i + n.val) % 64 = i + n.val - 64 := by omega
    rw [hwrap, getLsbD_rotl64_of_ge v n hi hge]

/-- Settles O53: a step waits or performs one move, and no move writes the bound. -/
theorem stepNeverChangesTheBuild : Obligations.StepNeverChangesTheBuild := by
  intro s t h
  obtain ⟨-, hwait⟩ | ⟨act, rest, -, hmove⟩ := step_cases s
  · cases hwait.symm.trans h; rfl
  · exact (perform_keeps_maxMsg (hmove.symm.trans h)).trans (s.setHost_maxMsg rest)

/-- Settles O39: the first step writes the message, which meets the build's bound by hypothesis; `HASH` and the read
follow. -/
theorem hostGetsTheDigestOfItsMessage : Obligations.HostGetsTheDigestOfItsMessage := by
  intro s m rest hlen hhost
  have hwrite := step_writeMessage hhost
  exact ⟨_, (run_succ_of_step hwrite 2).trans (run_hash_readDigest rfl hlen), rfl, rfl, rfl⟩

end Sys2Proof.Machine
end

section
/-! Facts about the state and its tables that later proofs share: what a command leaves in each register and flag, and the
rules that establish the engine invariant. -/

namespace Sys2Proof.Machine

/-! ### What a command leaves, register by register -/

/-- What a command that completes leaves in `P` (R31). -/
def bufferAfter (i : Instr) (s : State) : ByteSpace :=
  match i with
  | .pad | .hash => pad s.msg
  | _ => s.p

/-- What a command that completes leaves in `ib` (R28). -/
def blockPointerAfter (i : Instr) (s : State) : Nat :=
  match i with
  | .init | .pad => 0
  | .absorbblk => s.ib + 1
  | .absorb => max s.ib (nblocks s.p)
  | .hash => nblocks (pad s.msg)
  | _ => s.ib

/-- What a command that completes leaves in `Z` (R32). -/
def digestAfter (i : Instr) (s : State) : Digest :=
  match i with
  | .squeeze => squeeze s.lanes
  | .hash => sha3_256 s.msg
  | _ => s.z

/-- What a command that completes leaves in `ZV` (R33). -/
def digestValidAfter (i : Instr) (s : State) : Bool :=
  match i with
  | .init => false
  | .squeeze | .hash => true
  | _ => s.zv

theorem exec_next_registers {i : Instr} {s t : State} (h : exec i s = .next t) :
    t.p = bufferAfter i s ∧ t.ib = blockPointerAfter i s ∧ t.z = digestAfter i s ∧ t.zv = digestValidAfter i s := by
  rcases exec_next_cases h with ⟨_, rfl, hmem⟩ | ⟨_, rfl, _, rfl⟩ | ⟨_, rfl, _, rfl⟩ | ⟨rfl, _, rfl⟩ | ⟨rfl, rfl⟩ |
    ⟨rfl, _, _, rfl⟩ | ⟨rfl, _, _, rfl⟩ | ⟨rfl, rfl⟩ | ⟨rfl, rfl⟩ | ⟨rfl, _, rfl⟩
  case inl =>
    simp only [List.mem_cons, List.not_mem_nil, or_false] at hmem
    rcases hmem with rfl | rfl | rfl | rfl <;> exact ⟨rfl, rfl, rfl, rfl⟩
  all_goals exact ⟨rfl, rfl, rfl, rfl⟩

theorem exec_blockPointer {i : Instr} {s t : State} (h : exec i s = .next t) : t.ib = blockPointerAfter i s := by
  obtain ⟨-, hib, -, -⟩ := exec_next_registers h
  exact hib

theorem bufferAfter_eq_p {i : Instr} (hpad : i ≠ .pad) (hhash : i ≠ .hash) (s : State) : bufferAfter i s = s.p := by
  unfold bufferAfter
  split
  · exact absurd rfl hpad
  · exact absurd rfl hhash
  · rfl

theorem blockPointerAfter_eq_ib {i : Instr} (hinit : i ≠ .init) (hpad : i ≠ .pad) (hblk : i ≠ .absorbblk)
    (habs : i ≠ .absorb) (hhash : i ≠ .hash) (s : State) : blockPointerAfter i s = s.ib := by
  unfold blockPointerAfter
  split
  · exact absurd rfl hinit
  · exact absurd rfl hpad
  · exact absurd rfl hblk
  · exact absurd rfl habs
  · exact absurd rfl hhash
  · rfl

theorem digestAfter_eq_z {i : Instr} (hsq : i ≠ .squeeze) (hhash : i ≠ .hash) (s : State) : digestAfter i s = s.z := by
  unfold digestAfter
  split
  · exact absurd rfl hsq
  · exact absurd rfl hhash
  · rfl

theorem digestValidAfter_eq_zv {i : Instr} (hinit : i ≠ .init) (hsq : i ≠ .squeeze) (hhash : i ≠ .hash) (s : State) :
    digestValidAfter i s = s.zv := by
  unfold digestValidAfter
  split
  · exact absurd rfl hinit
  · exact absurd rfl hsq
  · exact absurd rfl hhash
  · rfl

/-! ### One command that completes, taken apart -/

theorem exec_pad_next {s t : State} (h : exec .pad s = .next t) :
    messageTooLong s = false ∧ t = (s.setP (pad s.msg)).setIb 0 := by
  simpa using exec_next_cases h

theorem exec_hash_next {s t : State} (h : exec .hash s = .next t) : messageTooLong s = false ∧ t = hashedState s := by
  simpa using exec_next_cases h

theorem exec_xorin_next {s t : State} (h : exec .xorin s = .next t) :
    ∃ bk, blockAt s.p s.ib = some bk ∧ t = s.setLanes (xorBlock s.lanes bk) := by
  simpa using exec_next_cases h

theorem exec_iota_next {ir : BitVec 8} {s t : State} (h : exec (.iota ir) s = .next t) :
    ∃ hir : ir.toNat < 24, t = s.setLanes (iota s.lanes ⟨ir.toNat, hir⟩) := by
  simpa using exec_next_cases h

/-- Whether the message is too long depends on the message and the build's bound only (R140). -/
theorem messageTooLong_congr {s s' : State} (hmsg : s'.msg = s.msg) (hmax : s'.maxMsg = s.maxMsg) :
    messageTooLong s' = messageTooLong s := by
  simp only [messageTooLong, hmsg, hmax]

/-! ### The lanes a command does not write -/

/-- IOTA's constant meets lane `L[0]` and no other (R119). -/
theorem iota_getElem_of_pos (a : Lanes) (ir : Fin 24) (w : Fin 25) (hw : 1 ≤ w.val) : (iota a ir)[w.val] = a[w.val] := by
  have hcoord : ¬(columnOf w = 0 ∧ rowOf w = 0) := by
    simp only [columnOf, rowOf, Fin.ext_iff, Fin.val_zero]
    omega
  rw [getElem_eq_laneAt _ _ w.isLt, getElem_eq_laneAt _ _ w.isLt, laneAt_iota, if_neg hcoord]

/-- A block meets the 17 rate lanes and no other (R54, R151). -/
theorem xorBlock_getElem_capacity (a : Lanes) (bk : Block) (w : Fin 25) (hw : 17 ≤ w.val) :
    (xorBlock a bk)[w.val] = a[w.val] := by
  have hindex : 17 ≤ (columnOf w).val + 5 * (rowOf w).val := by
    simp only [columnOf, rowOf]
    omega
  rw [getElem_eq_laneAt _ _ w.isLt, getElem_eq_laneAt _ _ w.isLt, laneAt_xorBlock_capacity _ _ _ _ hindex]

theorem exec_pad_squeeze_keep_lanes {i : Instr} {s t : State} (hi : i = .pad ∨ i = .squeeze) (h : exec i s = .next t) :
    t.lanes = s.lanes := by
  rcases hi with rfl | rfl
  · obtain ⟨-, rfl⟩ := exec_pad_next h
    rfl
  · cases h
    rfl

theorem exec_iota_keeps_other_lanes {ir : BitVec 8} {s t : State} (h : exec (.iota ir) s = .next t) (w : Fin 25)
    (hw : 1 ≤ w.val) : t.lanes[w.val] = s.lanes[w.val] := by
  obtain ⟨_, rfl⟩ := exec_iota_next h
  exact iota_getElem_of_pos _ _ w hw

theorem exec_xorin_keeps_capacity {s t : State} (h : exec .xorin s = .next t) (w : Fin 25) (hw : 17 ≤ w.val) :
    t.lanes[w.val] = s.lanes[w.val] := by
  obtain ⟨_, -, rfl⟩ := exec_xorin_next h
  exact xorBlock_getElem_capacity _ _ w hw

/-! ### The engine invariant: one rule per way of meeting it -/

theorem engineInv_of_empty_buffer {t : State} (hp : t.p = []) (hib : t.ib = 0) : EngineInv t :=
  ⟨.inl hp, by rw [hib]; exact Nat.zero_le _⟩

theorem engineInv_of_padded_buffer {t : State} {m : ByteSpace} (hp : t.p = pad m)
    (hlen : ∀ b, t.maxMsg = some b → m.length ≤ b) (hib : t.ib ≤ nblocks t.p) : EngineInv t :=
  ⟨.inr ⟨m, hp, hlen⟩, hib⟩

theorem engineInv_of_same_buffer {s t : State} (hs : EngineInv s) (hp : t.p = s.p) (hmax : t.maxMsg = s.maxMsg)
    (hib : t.ib ≤ nblocks s.p) : EngineInv t := by
  obtain ⟨hbuf, -⟩ := hs
  unfold EngineInv
  rw [hp, hmax]
  exact ⟨hbuf, hib⟩

theorem EngineInv.ib_le {s : State} (hs : EngineInv s) : s.ib ≤ nblocks s.p := hs.2

/-- PAD and HASH make `P` the padding of an accepted message; every other command keeps `P`, and only ABSORBBLK, on a block
that exists, and ABSORB raise `ib`. -/
theorem exec_keeps_engineInv {i : Instr} {s t : State} (hs : EngineInv s) (h : exec i s = .next t) : EngineInv t := by
  rcases exec_next_cases h with ⟨_, rfl, _⟩ | ⟨_, _, _, rfl⟩ | ⟨_, _, _, rfl⟩ | ⟨_, hfits, rfl⟩ | ⟨_, rfl⟩ |
    ⟨_, _, _, rfl⟩ | ⟨_, _, hblock, rfl⟩ | ⟨_, rfl⟩ | ⟨_, rfl⟩ | ⟨_, hfits, rfl⟩
  · exact engineInv_of_same_buffer hs rfl rfl hs.ib_le
  · exact engineInv_of_same_buffer hs rfl rfl hs.ib_le
  · exact engineInv_of_same_buffer hs rfl rfl hs.ib_le
  · exact engineInv_of_padded_buffer rfl ((messageTooLong_eq_false_iff s).mp hfits) (Nat.zero_le _)
  · exact engineInv_of_same_buffer hs rfl rfl (Nat.zero_le _)
  · exact engineInv_of_same_buffer hs rfl rfl hs.ib_le
  · exact engineInv_of_same_buffer hs rfl rfl (lt_of_blockAt hblock)
  · exact engineInv_of_same_buffer hs rfl rfl (max_le hs.ib_le le_rfl)
  · exact engineInv_of_same_buffer hs rfl rfl hs.ib_le
  · exact engineInv_of_padded_buffer rfl ((messageTooLong_eq_false_iff s).mp hfits) le_rfl

/-- Of the host's own moves only the reset touches `P` or `ib` (R197, R200). -/
theorem perform_keeps_engineInv {act : HostAct} {s t : State} (hs : EngineInv s) (h : perform act s = .next t) :
    EngineInv t := by
  cases act with
  | command w =>
    obtain ⟨i, -, hexec⟩ := exec_of_issue_next h
    exact exec_keeps_engineInv hs hexec
  | writeMessage m =>
    cases h
    exact engineInv_of_same_buffer hs rfl rfl hs.ib_le
  | readDigest =>
    cases hzv : s.zv with
    | true =>
      cases (readDigest_of_valid hzv).symm.trans h
      exact engineInv_of_same_buffer hs rfl rfl hs.ib_le
    | false => cases (readDigest_of_invalid hzv).symm.trans h
  | reset m d =>
    cases h
    exact engineInv_of_empty_buffer rfl rfl

end Sys2Proof.Machine
end

section
/-! The statements of the state family (spec/10_state.md): the invariant of the block pointer and the buffer, what each
command may write, the constant tables, the host's write and the reset state. -/

namespace Sys2Proof.Machine

/-- Settles O51: a step waits or performs one move, and every move keeps the invariant. -/
theorem stepKeepsTheInvariant : Obligations.StepKeepsTheInvariant := by
  intro s t hs h
  obtain ⟨-, hwait⟩ | ⟨act, rest, -, hmove⟩ := step_cases s
  · cases hwait.symm.trans h
    exact hs
  · have htaken : EngineInv (s.setHost rest) := engineInv_of_same_buffer hs rfl rfl hs.ib_le
    exact perform_keeps_engineInv htaken (hmove.symm.trans h)

/-- Settles O32: the pointer after a command is `blockPointerAfter`, and the invariant bounds it. -/
theorem blockPointerRule : Obligations.BlockPointerRule := by
  refine ⟨fun s t hs => ⟨exec_blockPointer, exec_blockPointer, exec_blockPointer, exec_blockPointer, fun h => ?absorb,
    fun h => ?hash, fun i hi h => ?others, fun i h => (exec_keeps_engineInv hs h).ib_le⟩, fun p k hk => ?blocks⟩
  case absorb => exact (exec_blockPointer h).trans (max_eq_right hs.ib_le)
  case hash =>
    obtain ⟨-, rfl⟩ := exec_hash_next h
    rfl
  case others =>
    rw [exec_blockPointer h]
    rcases hi with rfl | rfl | rfl | rfl | ⟨_, rfl⟩ | ⟨_, rfl⟩ | rfl <;> rfl
  case blocks =>
    obtain ⟨bk, hbk⟩ := blockAt_of_lt (p := p) hk
    exact ⟨bk, hbk, blockAt_byte hbk⟩

/-- Settles O37: the fields of `hashedState` are functions of the message, and only the message and the bound decide whether
HASH completes. -/
theorem hashForgetsEarlierState : Obligations.HashForgetsEarlierState := by
  intro s s' t hmsg hmax h
  obtain ⟨hfits, rfl⟩ := exec_hash_next h
  have hfits' : messageTooLong s' = false := (messageTooLong_congr hmsg hmax).trans hfits
  rw [exec_hash hfits', hashedState_lanes, hashedState_p, hashedState_ib, hashedState_z, hashedState_zv, ← hmsg]
  rfl

/-- Settles O41: the register a command leaves is the old one unless the command is among its writers. -/
theorem commandsWriteOnlyWhatTheTableSays : Obligations.CommandsWriteOnlyWhatTheTableSays := by
  intro i s t h
  obtain ⟨hmsg, hmax, hhost, htaken⟩ := exec_keeps_host_side h
  obtain ⟨hp, hib, hz, hzv⟩ := exec_next_registers h
  refine ⟨fun a => by rw [hmsg], hmax, hhost, htaken, fun hpad hhash a => ?buffer,
    fun hsq hhash => hz.trans (digestAfter_eq_z hsq hhash s),
    fun hinit hsq hhash => hzv.trans (digestValidAfter_eq_zv hinit hsq hhash s),
    fun hinit hpad hblk habs hhash => hib.trans (blockPointerAfter_eq_ib hinit hpad hblk habs hhash s),
    fun hi => exec_pad_squeeze_keep_lanes hi h, ?iota, ?xorin⟩
  case buffer => rw [hp, bufferAfter_eq_p hpad hhash]
  case iota =>
    rintro ⟨ir, rfl⟩
    exact exec_iota_keeps_other_lanes h
  case xorin =>
    rintro rfl
    exact exec_xorin_keeps_capacity h

/-- Settles O48: the step takes the write off the host's moves and performs it. -/
theorem hostMessageWriteChangesOnlyMsg : Obligations.HostMessageWriteChangesOnlyMsg :=
  fun _ _ _ hhost => step_writeMessage hhost

/-- Settles O52: after reset `P` is empty and `ib` is 0. -/
theorem resetHasTheInvariant : Obligations.ResetHasTheInvariant := engineInv_of_empty_buffer rfl rfl

/-- Settles O5: the tables are finite, so each clause is read off them entry by entry. -/
theorem constantTablesAsPrinted : Obligations.ConstantTablesAsPrinted := by
  unfold Obligations.ConstantTablesAsPrinted
  refine ⟨rfl, ?printedRC, ?printedROT, ?bits, rfl, rfl, rfl, ?distinct⟩
  case printedRC => decide
  case printedROT => decide
  case bits => decide
  case distinct => decide

/-- Settles O6: the register is run over its 168 bits and the walk over its 24 coordinates. -/
theorem constantTablesFollowTheGeneratingRules : Obligations.ConstantTablesFollowTheGeneratingRules := by
  unfold Obligations.ConstantTablesFollowTheGeneratingRules
  refine ⟨?registerBits, ?walk, rfl⟩
  case registerBits => decide
  case walk => decide

end Sys2Proof.Machine
end

section
/-! Facts about the byte spaces that later proofs share: which bit of which lane a bit of a block meets, the length of the
padded message, and what absorbing and squeezing leave. -/

namespace Sys2Proof.Machine

/-! ### Block bits and lane bits -/

/-- The lane bit that bit `i` of block byte `j` meets: bit `8*(j mod 8) + i` of lane `L[j div 8]` (R52). -/
def blockBit (a : Lanes) (j : Fin 136) (i : Fin 8) : Bool :=
  (a[j.val / 8]'(by have := j.isLt; omega)).getLsbD (8 * (j.val % 8) + i.val)

/-- A byte placed in a lane has its bits at the position it is placed at (R50). -/
theorem getLsbD_placeByte_same (b : Byte) (j : Nat) (i : Fin 8) :
    (placeByte b j).getLsbD (8 * (j % 8) + i.val) = b.getLsbD i.val := by
  have hlane : 8 * (j % 8) + i.val < 64 := by omega
  have hoffset : 8 * (j % 8) + i.val - 8 * (j % 8) = i.val := Nat.add_sub_cancel_left _ _
  have hi : i.val < 64 := by omega
  rw [placeByte, BitVec.getLsbD_shiftLeft, hoffset, BitVec.getLsbD_setWidth]
  simp [hlane, hi]

/-- At every other position of the lane a placed byte is 0: the bit lies below it or above its bit 7 (R50). -/
theorem getLsbD_placeByte_of_ne (b : Byte) {j k : Nat} (i : Fin 8) (h : k % 8 ≠ j % 8) :
    (placeByte b k).getLsbD (8 * (j % 8) + i.val) = false := by
  rw [placeByte, BitVec.getLsbD_shiftLeft]
  by_cases hbelow : 8 * (j % 8) + i.val < 8 * (k % 8)
  · simp [hbelow]
  · have habove : b.getLsbD (8 * (j % 8) + i.val - 8 * (k % 8)) = false := BitVec.getLsbD_of_ge _ _ (by omega)
    rw [BitVec.getLsbD_setWidth, habove]
    simp

/-- One pass of `xorBlock` changes the bits that its own byte meets and no other (R151). -/
theorem blockBit_xorByte (a : Lanes) (k : Fin 136) (b : Byte) (j : Fin 136) (i : Fin 8) :
    blockBit (xorByte a k b) j i = (blockBit a j i ^^ (decide (j = k) && b.getLsbD i.val)) := by
  have hw : j.val / 8 < 25 := by have := j.isLt; omega
  have hindex : (columnOf ⟨j.val / 8, hw⟩).val + 5 * (rowOf ⟨j.val / 8, hw⟩).val = j.val / 8 := Nat.mod_add_div _ 5
  simp only [blockBit, getElem_eq_laneAt _ _ hw, laneAt_xorByte, hindex]
  by_cases hlane : k.val / 8 = j.val / 8
  · rw [if_pos hlane, BitVec.getLsbD_xor]
    by_cases hjk : j = k
    · subst hjk
      simp [getLsbD_placeByte_same]
    · have hpos : k.val % 8 ≠ j.val % 8 := by omega
      simp [getLsbD_placeByte_of_ne b i hpos, hjk]
  · have hjk : j ≠ k := by
      rintro rfl
      exact hlane rfl
    simp [hlane, hjk]

/-- Passes over distinct bytes: a bit changes exactly when its byte is among them. -/
theorem blockBit_xorPasses (bk : Block) (j : Fin 136) (i : Fin 8) {js : List (Fin 136)} (hjs : js.Nodup) (a : Lanes) :
    blockBit (js.foldl (fun st k => xorByte st k bk[k.val]) a) j i =
      (blockBit a j i ^^ (decide (j ∈ js) && bk[j.val].getLsbD i.val)) := by
  induction js generalizing a with
  | nil => simp
  | cons k js ih =>
    obtain ⟨hk, hjs⟩ := List.nodup_cons.mp hjs
    rw [List.foldl_cons, ih hjs, blockBit_xorByte]
    by_cases hjk : j = k
    · subst hjk
      simp [hk]
    · simp [hjk]

/-- Every bit of a block meets exactly one lane bit (R52, R151). -/
theorem blockBit_xorBlock (a : Lanes) (bk : Block) (j : Fin 136) (i : Fin 8) :
    blockBit (xorBlock a bk) j i = (blockBit a j i ^^ bk[j.val].getLsbD i.val) := by
  unfold xorBlock
  rw [blockBit_xorPasses bk j i (List.nodup_finRange 136) a]
  simp

/-! ### The length of the padded message -/

/-- Padding fills up to the next multiple of 136 bytes, with 1 to 136 bytes (R142). -/
theorem padLen_eq (n : Nat) : padLen n = 136 - n % 136 := by
  have hguard : 1088 - 8 * n % 1088 ≠ 0 := by omega
  simp only [padLen, padRemaining, Config.rate, if_neg hguard]
  omega

theorem length_pad_mod (m : ByteSpace) : (pad m).length % 136 = 0 := by
  rw [length_pad, padLen_eq]
  omega

theorem EngineInv.length_p_mod {s : State} (hs : EngineInv s) : s.p.length % 136 = 0 := by
  obtain ⟨hempty | ⟨m, hpad, -⟩, -⟩ := hs
  · rw [hempty]
    rfl
  · rw [hpad, length_pad_mod]

/-! ### Runs of ABSORB and SQUEEZE -/

/-- `ABSORB; SQUEEZE` takes its digest from the old lanes, `P` and `ib` (R156, R158). -/
theorem runCommands_absorb_squeeze (s : State) :
    runCommands [.absorb, .squeeze] s =
      .next ((((s.setLanes (absorb s.lanes s.p s.ib)).setIb (max s.ib (nblocks s.p))).setZ
        (squeeze (absorb s.lanes s.p s.ib))).setZv true) := by
  rw [runCommands_cons (exec_absorb s), runCommands_cons (exec_squeeze _), runCommands_nil]
  rfl

end Sys2Proof.Machine
end

section
/-! The statements of the memory family (spec/20_memory.md): the bits of a block, full blocks, the commands that may be
repeated, and the message after PAD. -/

namespace Sys2Proof.Machine

/-- Settles O27: the byte at `136*ib + j` is byte `j` of block `ib`, and its bits meet the lanes where `blockBit` has
them. -/
theorem blockBitsMeetLaneBits : Obligations.BlockBitsMeetLaneBits := by
  intro s t h j i b hbyte
  obtain ⟨bk, hbk, rfl⟩ := exec_xorin_next h
  have hb : bk[j.val] = b := Option.some.inj ((blockAt_byte hbk j.val j.isLt).symm.trans hbyte)
  rw [← hb]
  exact blockBit_xorBlock s.lanes bk j i

/-- Settles O33: under the invariant `P` is empty or a padded message, and a block that exists has all its bytes. -/
theorem everyBlockIsFull : Obligations.EveryBlockIsFull := by
  intro s hs
  refine ⟨hs.length_p_mod, fun j hj hlt => ?_⟩
  obtain ⟨bk, hbk⟩ := blockAt_of_lt hlt
  exact ⟨bk[j], blockAt_byte hbk j hj⟩

/-- Settles O34: none of the three writes what it reads; PAD accepts the message again, since it leaves `MSG` and the
bound. -/
theorem initPadSqueezeAreIdempotent : Obligations.InitPadSqueezeAreIdempotent := by
  rintro i (rfl | rfl | rfl) s t h
  · cases h
    rfl
  · obtain ⟨hfits, rfl⟩ := exec_pad_next h
    exact exec_pad ((messageTooLong_congr rfl rfl).trans hfits)
  · cases h
    rfl

/-- Settles O40: what the run writes is computed from the lanes, `P` and `ib`, and the message is left where it is. -/
theorem lateMessageWriteDoesNotReachTheDigest : Obligations.LateMessageWriteDoesNotReachTheDigest :=
  fun s m => ⟨_, runCommands_absorb_squeeze s, runCommands_absorb_squeeze { s with msg := m }⟩

end Sys2Proof.Machine
end

section
/-! Facts about the encoding (spec/30_encoding.md R81, R82, R85): the fields of a command word, the decoder opcode by
opcode, the round trip, the list of the words that decode, and the step on a word that spells no command. -/

namespace Sys2Proof

open Spec

/-! ### The fields of a command word -/

theorem opcField_append_argField (w : CmdWord) : opcField w ++ argField w = w := by
  have hjoin : w.extractLsb' 8 8 ++ w.extractLsb' 0 8 = w.extractLsb' 0 16 :=
    BitVec.extractLsb'_append_extractLsb'_eq_extractLsb' rfl
  rw [opcField, argField, hjoin, BitVec.extractLsb'_eq_self]

/-- The encoding of a command is the one word with its opcode and its argument (R81). -/
theorem encode_eq_of_fields {w : CmdWord} {i : Instr} (hopc : opcodeOf i = opcField w)
    (harg : argumentOf i = argField w) : encode i = w := by
  rw [encode, hopc, harg, opcField_append_argField]

theorem opcField_encode (i : Instr) : opcField (encode i) = opcodeOf i := opcField_append _ _

theorem argField_encode (i : Instr) : argField (encode i) = argumentOf i := argField_append _ _

theorem cmdOf_eq_append {opc arg : Nat} (harg : arg < 256) :
    cmdOf opc arg = BitVec.ofNat 8 opc ++ BitVec.ofNat 8 arg := by
  have hlow : arg % 2 ^ 8 < 2 ^ 8 := Nat.mod_lt _ (by decide)
  apply BitVec.eq_of_toNat_eq
  rw [cmdOf, BitVec.toNat_append, BitVec.toNat_ofNat, BitVec.toNat_ofNat, BitVec.toNat_ofNat,
    ← Nat.shiftLeft_add_eq_or_of_lt hlow, Nat.shiftLeft_eq]
  omega

theorem toNat_opcField_cmdOf {opc arg : Nat} (hopc : opc < 256) (harg : arg < 256) :
    (opcField (cmdOf opc arg)).toNat = opc := by
  rw [cmdOf_eq_append harg, opcField_append, BitVec.toNat_ofNat, Nat.mod_eq_of_lt hopc]

theorem argField_cmdOf {opc arg : Nat} (harg : arg < 256) : argField (cmdOf opc arg) = BitVec.ofNat 8 arg := by
  rw [cmdOf_eq_append harg, argField_append]

/-! ### The two formats -/

theorem formatN_of_arg_zero {w : CmdWord} (h : argField w = 0x00) (i : Instr) : formatN w i = .ok i := if_pos h

theorem formatR_of_arg_le {w : CmdWord} (h : (argField w).toNat ≤ 23) (mk : BitVec 8 → Instr) :
    formatR w mk = .ok (mk (argField w)) := if_pos h

theorem formatN_ok {w : CmdWord} {i j : Instr} (h : formatN w i = .ok j) : argField w = 0x00 ∧ i = j := by
  unfold formatN at h
  split at h
  case isTrue harg => exact ⟨harg, Except.ok.inj h⟩
  case isFalse => cases h

theorem formatR_ok {w : CmdWord} {mk : BitVec 8 → Instr} {j : Instr} (h : formatR w mk = .ok j) :
    (argField w).toNat ≤ 23 ∧ mk (argField w) = j := by
  unfold formatR at h
  split at h
  case isTrue harg => exact ⟨harg, Except.ok.inj h⟩
  case isFalse => cases h

theorem formatN_cmdOf {opc arg : Nat} (harg : arg < 256) (i : Instr) :
    formatN (cmdOf opc arg) i = if arg = 0 then .ok i else .error .illegalCommand := by
  have hzero : BitVec.ofNat 8 arg = 0x00 ↔ arg = 0 := by
    rw [← BitVec.toNat_inj, BitVec.toNat_ofNat, Nat.mod_eq_of_lt harg]
    rfl
  simp only [formatN, argField_cmdOf harg, hzero]

theorem formatR_cmdOf {opc arg : Nat} (harg : arg < 256) (mk : BitVec 8 → Instr) :
    formatR (cmdOf opc arg) mk = if arg ≤ 23 then .ok (mk (BitVec.ofNat 8 arg)) else .error .operandRange := by
  rw [formatR, argField_cmdOf harg, BitVec.toNat_ofNat, Nat.mod_eq_of_lt harg]

/-! ### The opcode map -/

/-- The format R rows of the opcode map (R82): an opcode and the command it gives for each `ARG`. -/
def formatRMap : List (Nat × (BitVec 8 → Instr)) := [(0x04, .iota), (0x05, .round)]

theorem exists_mem_formatRMap_iff {opc : Nat} : (∃ mk, (opc, mk) ∈ formatRMap) ↔ opc = 0x04 ∨ opc = 0x05 := by
  simp [formatRMap, exists_or]

/-- Every opcode has a row of format N, has a row of format R, or is reserved (R82, R86). -/
theorem opcode_cases (opc : Nat) :
    (∃ i, (opc, i) ∈ formatNMap) ∨ (∃ mk, (opc, mk) ∈ formatRMap) ∨ (opc = 0x00 ∨ 0x0E ≤ opc) := by
  by_cases hreserved : 0x0E ≤ opc
  · exact .inr (.inr (.inr hreserved))
  · have hopc : opc < 0x0E := Nat.lt_of_not_le hreserved
    interval_cases opc <;> simp [formatNMap, formatRMap]

/-- Every command has a row of format N, or is what a row of format R gives for its `ir` (R81, R82). -/
theorem format_cases (i : Instr) :
    ((opcodeOf i).toNat, i) ∈ formatNMap ∨ ∃ opc mk ir, (opc, mk) ∈ formatRMap ∧ i = mk ir := by
  cases i with
  | iota ir => exact .inr ⟨0x04, .iota, ir, by simp [formatRMap], rfl⟩
  | round ir => exact .inr ⟨0x05, .round, ir, by simp [formatRMap], rfl⟩
  | _ => exact .inl (by decide)

theorem of_mem_formatNMap {opc : Nat} {i : Instr} (h : (opc, i) ∈ formatNMap) :
    (opcodeOf i).toNat = opc ∧ argumentOf i = 0x00 ∧ WellFormed i = true := by
  have hrows : ∀ row ∈ formatNMap,
      (opcodeOf row.2).toNat = row.1 ∧ argumentOf row.2 = 0x00 ∧ WellFormed row.2 = true := by decide
  exact hrows _ h

theorem of_mem_formatRMap {opc : Nat} {mk : BitVec 8 → Instr} (h : (opc, mk) ∈ formatRMap) (ir : BitVec 8) :
    (opcodeOf (mk ir)).toNat = opc ∧ argumentOf (mk ir) = ir ∧ (WellFormed (mk ir) = true ↔ ir.toNat ≤ 23) := by
  simp only [formatRMap, List.mem_cons, Prod.mk.injEq, List.not_mem_nil, or_false] at h
  rcases h with ⟨rfl, rfl⟩ | ⟨rfl, rfl⟩ <;> exact ⟨rfl, rfl, decide_eq_true_iff⟩

/-! ### The decoder, opcode by opcode -/

theorem decode_of_formatN {w : CmdWord} {i : Instr} (h : ((opcField w).toNat, i) ∈ formatNMap) :
    decode w = formatN w i := by
  generalize hopc : (opcField w).toNat = opc at h
  simp only [formatNMap, List.mem_cons, Prod.mk.injEq, List.not_mem_nil, or_false] at h
  rcases h with ⟨rfl, rfl⟩ | ⟨rfl, rfl⟩ | ⟨rfl, rfl⟩ | ⟨rfl, rfl⟩ | ⟨rfl, rfl⟩ | ⟨rfl, rfl⟩ | ⟨rfl, rfl⟩ | ⟨rfl, rfl⟩ |
    ⟨rfl, rfl⟩ | ⟨rfl, rfl⟩ | ⟨rfl, rfl⟩ <;> simp only [decode, hopc]

theorem decode_of_formatR {w : CmdWord} {mk : BitVec 8 → Instr} (h : ((opcField w).toNat, mk) ∈ formatRMap) :
    decode w = formatR w mk := by
  generalize hopc : (opcField w).toNat = opc at h
  simp only [formatRMap, List.mem_cons, Prod.mk.injEq, List.not_mem_nil, or_false] at h
  rcases h with ⟨rfl, rfl⟩ | ⟨rfl, rfl⟩ <;> simp only [decode, hopc]

theorem decode_of_reserved {w : CmdWord} (h : (opcField w).toNat = 0x00 ∨ 0x0E ≤ (opcField w).toNat) :
    decode w = .error .illegalCommand := by
  unfold decode
  split
  case h_14 => rfl
  all_goals omega

theorem decode_cmdOf_of_formatN {opc arg : Nat} {i : Instr} (hrow : (opc, i) ∈ formatNMap) (hopc : opc < 256)
    (harg : arg < 256) : decode (cmdOf opc arg) = if arg = 0 then .ok i else .error .illegalCommand := by
  rw [← toNat_opcField_cmdOf hopc harg] at hrow
  rw [decode_of_formatN hrow, formatN_cmdOf harg]

theorem decode_cmdOf_of_formatR {opc arg : Nat} {mk : BitVec 8 → Instr} (hrow : (opc, mk) ∈ formatRMap)
    (hopc : opc < 256) (harg : arg < 256) :
    decode (cmdOf opc arg) = if arg ≤ 23 then .ok (mk (BitVec.ofNat 8 arg)) else .error .operandRange := by
  rw [← toNat_opcField_cmdOf hopc harg] at hrow
  rw [decode_of_formatR hrow, formatR_cmdOf harg]

theorem decode_cmdOf_of_reserved {opc arg : Nat} (hopc : opc < 256) (harg : arg < 256)
    (h : opc = 0x00 ∨ 0x0E ≤ opc) : decode (cmdOf opc arg) = .error .illegalCommand := by
  rw [← toNat_opcField_cmdOf hopc harg] at h
  exact decode_of_reserved h

/-! ### The round trip -/

/-- A command's own opcode selects its row, and its argument passes that row's check. -/
theorem decode_encode {i : Instr} (h : WellFormed i = true) : decode (encode i) = .ok i := by
  obtain hrow | ⟨opc, mk, ir, hrow, rfl⟩ := format_cases i
  · obtain ⟨-, harg, -⟩ := of_mem_formatNMap hrow
    rw [← opcField_encode] at hrow
    rw [decode_of_formatN hrow, formatN_of_arg_zero ((argField_encode i).trans harg)]
  · obtain ⟨hopc, harg, hlegal⟩ := of_mem_formatRMap hrow ir
    have hfield : argField (encode (mk ir)) = ir := (argField_encode _).trans harg
    rw [← hopc, ← opcField_encode] at hrow
    rw [decode_of_formatR hrow, formatR_of_arg_le (by rw [hfield]; exact hlegal.mp h), hfield]

/-- The row that decodes a word names its opcode, and the row's check fixes its argument. -/
theorem wellFormed_and_encode_of_decode {w : CmdWord} {i : Instr} (h : decode w = .ok i) :
    WellFormed i = true ∧ encode i = w := by
  obtain ⟨j, hrow⟩ | ⟨mk, hrow⟩ | hreserved := opcode_cases (opcField w).toNat
  · obtain ⟨harg, rfl⟩ := formatN_ok ((decode_of_formatN hrow).symm.trans h)
    obtain ⟨hopc, hzero, hwf⟩ := of_mem_formatNMap hrow
    exact ⟨hwf, encode_eq_of_fields (BitVec.eq_of_toNat_eq hopc) (hzero.trans harg.symm)⟩
  · obtain ⟨hle, rfl⟩ := formatR_ok ((decode_of_formatR hrow).symm.trans h)
    obtain ⟨hopc, harg, hlegal⟩ := of_mem_formatRMap hrow (argField w)
    exact ⟨hlegal.mpr hle, encode_eq_of_fields (BitVec.eq_of_toNat_eq hopc) harg⟩
  · cases (decode_of_reserved hreserved).symm.trans h

theorem decode_eq_ok_iff {w : CmdWord} {i : Instr} : decode w = .ok i ↔ WellFormed i = true ∧ encode i = w := by
  refine ⟨wellFormed_and_encode_of_decode, ?_⟩
  rintro ⟨hwf, rfl⟩
  exact decode_encode hwf

theorem encode_injOn_wellFormed {i j : Instr} (hi : WellFormed i = true) (hj : WellFormed j = true)
    (h : encode i = encode j) : i = j := by
  have hdecode : decode (encode i) = .ok j := by rw [h, decode_encode hj]
  exact Except.ok.inj ((decode_encode hi).symm.trans hdecode)

/-! ### The words that decode -/

/-- The commands of the hardware: the 11 of format N, and the two of format R at each `ir` in 0..23 (R82, R85). -/
def wellFormedCommands : List Instr :=
  formatNMap.map Prod.snd ++ formatRMap.flatMap fun row => (List.finRange 24).map fun ir => row.2 (BitVec.ofNat 8 ir)

theorem mem_wellFormedCommands {i : Instr} : i ∈ wellFormedCommands ↔ WellFormed i = true := by
  simp only [wellFormedCommands, List.mem_append, List.mem_map, List.mem_flatMap, List.mem_finRange, true_and,
    Prod.exists, exists_eq_right]
  constructor
  · rintro (⟨opc, hrow⟩ | ⟨opc, mk, hrow, ir, rfl⟩)
    · obtain ⟨-, -, hwf⟩ := of_mem_formatNMap hrow
      exact hwf
    · obtain ⟨-, -, hlegal⟩ := of_mem_formatRMap hrow (BitVec.ofNat 8 ir)
      rw [hlegal, BitVec.toNat_ofNat]
      omega
  · intro hwf
    obtain hrow | ⟨opc, mk, ir, hrow, rfl⟩ := format_cases i
    · exact .inl ⟨_, hrow⟩
    · obtain ⟨-, -, hlegal⟩ := of_mem_formatRMap hrow ir
      have hle : ir.toNat ≤ 23 := hlegal.mp hwf
      exact .inr ⟨opc, mk, hrow, ⟨ir.toNat, by omega⟩, by rw [BitVec.ofNat_toNat, BitVec.setWidth_eq]⟩

theorem nodup_wellFormedCommands : wellFormedCommands.Nodup := by decide

theorem nodup_map_encode_wellFormedCommands : (wellFormedCommands.map encode).Nodup :=
  nodup_wellFormedCommands.map_on fun _ hi _ hj =>
    encode_injOn_wellFormed (mem_wellFormedCommands.mp hi) (mem_wellFormedCommands.mp hj)

theorem mem_map_encode_wellFormedCommands (w : CmdWord) :
    w ∈ wellFormedCommands.map encode ↔ ∃ i, decode w = .ok i := by
  simp only [List.mem_map, mem_wellFormedCommands, decode_eq_ok_iff]

end Sys2Proof

namespace Sys2Proof.Machine

/-! ### A step on a word that spells no command -/

theorem issue_of_decode_error {w : CmdWord} {e : DecodeError} (h : decode w = .error e) (s : State) :
    issue w s = .refused (decodeRefusal e) := by
  simp only [issue, h, refuse]

theorem step_command_refused {s : State} {w : CmdWord} {rest : List HostAct} {e : DecodeError}
    (h : s.host = .command w :: rest) (hd : decode w = .error e) : step s = .refused (decodeRefusal e) :=
  (step_of_move h).trans (issue_of_decode_error hd _)

end Sys2Proof.Machine
end

section
/-! The statements of the encoding family (spec/30_encoding.md): the round trip of encoder and decoder, the opcode map,
the reserved words, and the step on a command word. -/

namespace Sys2Proof.Machine

open Spec

/-- Settles O1: a command's opcode selects its row of the opcode map, and a legal argument passes the row's check. -/
theorem decodeOfEncodeIsIdentity : Obligations.DecodeOfEncodeIsIdentity := fun _ => decode_encode

/-- Settles O2: the row that decodes a word gives a well-formed command with the word's two fields. -/
theorem encodeOfDecodeIsIdentity : Obligations.EncodeOfDecodeIsIdentity := fun _ _ => wellFormed_and_encode_of_decode

/-- Settles O3: the decoder row by row; the words that decode are the encodings of the 59 well-formed commands. -/
theorem decoderFollowsTheOpcodeMap : Obligations.DecoderFollowsTheOpcodeMap := by
  refine ⟨fun opc arg hopc harg => ⟨fun i hrow => decode_cmdOf_of_formatN hrow hopc harg, ?iota, ?round,
      decode_cmdOf_of_reserved hopc harg⟩,
    wellFormedCommands.map encode, rfl, nodup_map_encode_wellFormedCommands, mem_map_encode_wellFormedCommands⟩
  case iota => exact fun h => decode_cmdOf_of_formatR (by simp [formatRMap, h]) hopc harg
  case round => exact fun h => decode_cmdOf_of_formatR (by simp [formatRMap, h]) hopc harg

/-- Settles O44: the opcode is reserved, or its row's check of `ARG` fails. -/
theorem reservedWordsAreRefused : Obligations.ReservedWordsAreRefused := by
  intro s opc arg rest hopc harg hhost
  refine ⟨fun h => step_command_refused (e := .illegalCommand) hhost ?illegal,
    fun hR hrange => step_command_refused (e := .operandRange) hhost ?range⟩
  case illegal =>
    obtain hzero | hhigh | ⟨hiota, hround, hne⟩ := h
    · exact decode_cmdOf_of_reserved hopc harg (.inl hzero)
    · exact decode_cmdOf_of_reserved hopc harg (.inr hhigh)
    · obtain ⟨i, hrow⟩ | hrow | hreserved := opcode_cases opc
      · rw [decode_cmdOf_of_formatN hrow hopc harg, if_neg hne]
      · obtain h4 | h5 := exists_mem_formatRMap_iff.mp hrow
        · exact absurd h4 hiota
        · exact absurd h5 hround
      · exact decode_cmdOf_of_reserved hopc harg hreserved
  case range =>
    obtain ⟨mk, hrow⟩ := exists_mem_formatRMap_iff.mpr hR
    rw [decode_cmdOf_of_formatR hrow hopc harg, if_neg (by omega)]

/-- Settles O4: sixteen words, each run through the decoder. -/
theorem sampleCommandWordsDecode : Obligations.SampleCommandWordsDecode := by
  unfold Obligations.SampleCommandWordsDecode
  decide

/-- Settles O46: the step takes the word off the host's moves and issues it. -/
theorem stepPerformsTheDecodedCommand : Obligations.StepPerformsTheDecodedCommand := fun _ _ _ _ => step_command

end Sys2Proof.Machine
end

section
/-! Facts about the permutation (spec/40_permutation.md): each step on constant lanes, the coordinates of pi, the 1 bits
of the state, the round constants, and every command of the family as a function of the lanes. -/

namespace Sys2Proof.Machine

open Spec

/-! ### Writing the lanes -/

@[simp] theorem State.setLanes_self (s : State) : s.setLanes s.lanes = s := rfl

@[simp] theorem State.setLanes_setLanes (s : State) (v w : Lanes) : (s.setLanes v).setLanes w = s.setLanes w := rfl

/-! ### Lanes that are all alike -/

@[simp] theorem rotl64_zero (n : Fin 64) : rotl64 0#64 n = 0#64 := by
  simp [rotl64]

theorem rotl64_ones : ∀ n : Fin 64, rotl64 0xFFFFFFFFFFFFFFFF n = 0xFFFFFFFFFFFFFFFF := by decide

theorem columnMask_of_const {a : Lanes} {v : Lane} (h : ∀ x y, laneAt a x y = v) (x : Fin 5) :
    columnMask a x = v ^^^ rotl64 v 1 := by
  simp [columnMask, columnParity, h]

/-- A column of five equal lanes has the parity of one of them, and the two parities of a mask cancel (R112). -/
theorem theta_of_const {a : Lanes} {v : Lane} (hrot : rotl64 v 1 = v) (h : ∀ x y, laneAt a x y = v) :
    theta a = a := by
  apply lanes_ext
  intro x y
  rw [laneAt_theta, columnMask_of_const h, hrot, BitVec.xor_self, BitVec.xor_zero]

theorem laneAt_rhopi (a : Lanes) (x y : Fin 5) :
    laneAt (rhopi a) x y = rotl64 (laneAt a (x + 3 * y) x) (ROT (x + 3 * y) x) := by
  rw [rhopi, laneAt_pi, laneAt_rho]

/-- RHOPI only rotates lanes and moves them (R116). -/
theorem rhopi_of_const {a : Lanes} {v : Lane} (hrot : ∀ n, rotl64 v n = v) (h : ∀ x y, laneAt a x y = v) :
    rhopi a = a := by
  apply lanes_ext
  intro x y
  rw [laneAt_rhopi, h, h, hrot]

/-- No bit is both in the complement of a lane and in an equal lane (R118). -/
theorem chi_of_const {a : Lanes} {v : Lane} (h : ∀ x y, laneAt a x y = v) : chi a = a := by
  apply lanes_ext
  intro x y
  simp [laneAt_chi, h]

/-! ### THETA on a single lane -/

theorem columnParity_of_single {a : Lanes} {x0 y0 : Fin 5} {v : Lane}
    (h : ∀ x y, laneAt a x y = if x = x0 ∧ y = y0 then v else 0) (x : Fin 5) :
    columnParity a x = if x = x0 then v else 0 := by
  simp only [columnParity, h]
  by_cases hx : x = x0
  · fin_cases y0 <;> simp [hx]
  · simp [hx]

theorem add_four_eq_iff : ∀ x x0 : Fin 5, x + 4 = x0 ↔ x = x0 + 1 := by decide

theorem add_one_eq_iff : ∀ x x0 : Fin 5, x + 1 = x0 ↔ x = x0 + 4 := by decide

/-- The lane's column parity reaches column `x0 + 1` as it is and column `x0 + 4` rotated (R112). -/
theorem columnMask_of_single {a : Lanes} {x0 y0 : Fin 5} {v : Lane}
    (h : ∀ x y, laneAt a x y = if x = x0 ∧ y = y0 then v else 0) (x : Fin 5) :
    columnMask a x = if x = x0 + 1 then v else if x = x0 + 4 then rotl64 v 1 else 0 := by
  have hne : ∀ x0 : Fin 5, x0 + 1 ≠ x0 + 4 := by decide
  simp only [columnMask, columnParity_of_single h, add_four_eq_iff, add_one_eq_iff]
  by_cases h1 : x = x0 + 1
  · simp [h1, hne]
  · by_cases h4 : x = x0 + 4 <;> simp [h1, h4]

/-! ### CHI on a row with a single lane -/

theorem add_two_eq_iff : ∀ x x0 : Fin 5, x + 2 = x0 ↔ x = x0 + 3 := by decide

/-- The lane passes, through the zero beside it, to the lane two to its left (R118). -/
theorem laneAt_chi_of_single_in_row {a : Lanes} {x0 y : Fin 5} {v : Lane}
    (h : ∀ x, laneAt a x y = if x = x0 then v else 0) (x : Fin 5) :
    laneAt (chi a) x y = if x = x0 ∨ x = x0 + 3 then v else 0 := by
  have hself : ∀ x0 : Fin 5, x0 ≠ x0 + 3 := by decide
  have hnext : ∀ x0 : Fin 5, x0 + 3 ≠ x0 + 4 := by decide
  have hpass : 0xFFFFFFFFFFFFFFFF#64 &&& v = v := BitVec.allOnes_and
  rw [laneAt_chi, h, h, h]
  simp only [add_one_eq_iff, add_two_eq_iff]
  by_cases h0 : x = x0
  · simp [h0, hself]
  · by_cases h3 : x = x0 + 3
    · simp [h3, hnext, (hself x0).symm, hpass]
    · simp [h0, h3]

/-! ### The coordinates of pi -/

/-- Where pi reads the lane it puts at a coordinate (R114). -/
def piSource (p : Fin 5 × Fin 5) : Fin 5 × Fin 5 := (p.1 + 3 * p.2, p.1)

/-- Pi reads what it writes to `(y, 2x + 3y)` from column `x`, and from row `y` by form (R114). -/
theorem sourceColumn_destination : ∀ x y : Fin 5, y + 3 * (2 * x + 3 * y) = x := by decide

theorem piSource_bijective : Function.Bijective piSource := by decide

theorem piSource_iterate_twentyFour : ∀ p, piSource^[24] p = p := by decide

/-- The 24 coordinates other than `(0,0)` form one cycle: none comes back before 24 steps. -/
theorem piSource_iterate_ne : ∀ k : Fin 24, 0 < k.val → ∀ p, p ≠ (0, 0) → piSource^[k.val] p ≠ p := by decide

theorem laneAt_pi_iterate (k : Nat) (a : Lanes) (x y : Fin 5) :
    laneAt (pi^[k] a) x y = laneAt a (piSource^[k] (x, y)).1 (piSource^[k] (x, y)).2 := by
  induction k generalizing a with
  | zero => rfl
  | succ k ih =>
    rw [Function.iterate_succ_apply, ih, laneAt_pi, Function.iterate_succ_apply']
    rfl

/-- The lane that is 1 only at `(x, y)` tells whether a coordinate is `(x, y)`. -/
theorem exists_lane_ne_of_ne {x y : Fin 5} {p : Fin 5 × Fin 5} (h : p ≠ (x, y)) :
    ∃ a : Lanes, laneAt a p.1 p.2 ≠ laneAt a x y := by
  have hne : ¬(p.1 = x ∧ p.2 = y) := fun e => h (Prod.ext e.1 e.2)
  refine ⟨setLane zeroLanes x y 1, ?_⟩
  rw [laneAt_setLane, if_neg hne, laneAt_zeroLanes, laneAt_setLane_same]
  decide

/-! ### RHOPI in the writing form -/

/-- The lane at `(x, y)` goes to `(y, 2x + 3y)`, rotated by the offset of where it came from (R113, R115). -/
theorem laneAt_rhopi_destination (a : Lanes) (x y : Fin 5) :
    laneAt (rhopi a) y (2 * x + 3 * y) = rotl64 (laneAt a x y) (ROT x y) := by
  rw [laneAt_rhopi, sourceColumn_destination]

/-- Every row of the table of R115 is one coordinate's offset and destination. -/
theorem printedRhopi_row {w n W : Nat} (h : (w, n, W) ∈ printedRhopi) :
    ∃ x y : Fin 5, w = x.val + 5 * y.val ∧ n = (ROT x y).val ∧ W = y.val + 5 * (2 * x + 3 * y).val := by
  have hrows : ∀ row ∈ printedRhopi, ∃ x y : Fin 5,
      row.1 = x.val + 5 * y.val ∧ row.2.1 = (ROT x y).val ∧ row.2.2 = y.val + 5 * (2 * x + 3 * y).val := by decide
  exact hrows _ h

theorem getElem?_wordIndex (a : Lanes) (x y : Fin 5) : a[x.val + 5 * y.val]? = some (laneAt a x y) :=
  Vector.getElem?_eq_getElem (wordIndex_lt x y)

/-! ### The 1 bits of the state -/

theorem laneOnes_eq_sum (v : Lane) : laneOnes v = ∑ i : Fin 64, (v.getLsbD i.val).toNat := by
  rw [laneOnes, Fin.sum_univ_def, ← List.map_coe_finRange_eq_range, List.map_map]
  rfl

/-- A rotation permutes the bits of a lane (R11). -/
theorem laneOnes_rotl64 (v : Lane) (n : Fin 64) : laneOnes (rotl64 v n) = laneOnes v := by
  rw [laneOnes_eq_sum, laneOnes_eq_sum, ← Equiv.sum_comp (Equiv.addRight n)]
  refine Finset.sum_congr rfl fun i _ => ?_
  rw [Equiv.coe_addRight, Fin.val_add, rotateLeftMovesBits v n i.val i.isLt]

/-- The 1 bits of the state, counted lane by lane over the coordinates. -/
theorem stateOnes_eq_sum (a : Lanes) : stateOnes a = ∑ p : Fin 5 × Fin 5, laneOnes (laneAt a p.1 p.2) := by
  have hwords : stateOnes a = ∑ w : Fin 25, laneOnes a[w.val] := by
    have hlist : a.toList = List.ofFn fun w : Fin 25 => a[w.val] :=
      List.ext_getElem (by rw [Vector.length_toList, List.length_ofFn]) fun w _ _ => by
        rw [List.getElem_ofFn, Vector.getElem_toList]
    rw [stateOnes, hlist, List.map_ofFn, List.sum_ofFn]
    rfl
  have hcoordinates : ∑ p : Fin 5 × Fin 5, laneOnes (laneAt a p.1 p.2) = ∑ w : Fin 25, laneOnes a[w.val] :=
    Equiv.sum_comp ((Equiv.prodComm (Fin 5) (Fin 5)).trans finProdFinEquiv) fun w : Fin 25 => laneOnes a[w.val]
  rw [hwords, hcoordinates]

/-- Pi permutes the lanes and rho the bits within each (R116). -/
theorem stateOnes_rhopi (a : Lanes) : stateOnes (rhopi a) = stateOnes a := by
  have hpi : ∀ p : Fin 5 × Fin 5,
      laneOnes (laneAt (rhopi a) p.1 p.2) = laneOnes (laneAt a (piSource p).1 (piSource p).2) :=
    fun p => by rw [laneAt_rhopi, laneOnes_rotl64]; rfl
  rw [stateOnes_eq_sum, stateOnes_eq_sum, Finset.sum_congr rfl fun p _ => hpi p,
    piSource_bijective.sum_comp fun p => laneOnes (laneAt a p.1 p.2)]

/-! ### The round constants -/

/-- The model's table is the printed one (R24). -/
theorem roundConstant_of_printed {ir c : Nat} (h : (ir, c) ∈ printedRC) (hir : ir < 24) :
    RC[ir] = BitVec.ofNat 64 c := by
  have hrows : ∀ row ∈ printedRC, ∀ hrow : row.1 < 24, RC[row.1] = BitVec.ofNat 64 row.2 := by decide
  exact hrows _ h hir

theorem iota_iota_self (a : Lanes) (ir : Fin 24) : iota (iota a ir) ir = a := by
  apply lanes_ext
  intro x y
  by_cases h : x = 0 ∧ y = 0
  · obtain ⟨rfl, rfl⟩ := h
    simp [laneAt_iota]
  · rw [laneAt_iota, if_neg h, laneAt_iota, if_neg h]

/-- Only the constant of a round index counts. -/
theorem iota_congr (a : Lanes) {i j : Fin 24} (h : RC[i.val] = RC[j.val]) : iota a i = iota a j := by
  rw [iota, iota, h]

theorem exec_iota_congr {ir ir' : BitVec 8} (h : ir.toNat < 24) (h' : ir'.toNat < 24)
    (hRC : RC[ir.toNat] = RC[ir'.toNat]) (s : State) : exec (.iota ir) s = exec (.iota ir') s := by
  rw [exec_iota h, exec_iota h', iota_congr (i := ⟨_, h⟩) (j := ⟨_, h'⟩) s.lanes hRC]

/-- The first three steps keep the all-zero lanes, so what a round leaves of them is its constant (R122). -/
theorem laneAt_keccakRound_of_zero {a : Lanes} (h : ∀ x y, laneAt a x y = 0) (ir : Fin 24) (x y : Fin 5) :
    laneAt (keccakRound a ir) x y = if x = 0 ∧ y = 0 then RC[ir.val] else 0 := by
  rw [keccakRound, theta_of_const (rotl64_zero 1) h, rhopi_of_const rotl64_zero h, chi_of_const h]
  simp [laneAt_iota, h]

/-! ### Rounds and the family -/

theorem runCommands_roundSteps {ir : BitVec 8} (h : ir.toNat < 24) (s : State) :
    runCommands [.theta, .rhopi, .chi, .iota ir] s = .next (s.setLanes (keccakRound s.lanes ⟨ir.toNat, h⟩)) := by
  rw [runCommands_cons (exec_theta s), runCommands_cons (exec_rhopi _), runCommands_cons (exec_chi _),
    runCommands_cons (exec_iota h _), runCommands_nil]
  rfl

/-- ROUND commands in a row fold their rounds over the lanes. -/
theorem runCommands_rounds (irs : List (Fin 24)) (s : State) :
    runCommands (irs.map fun ir => .round (BitVec.ofNat 8 ir.val)) s =
      .next (s.setLanes (irs.foldl keccakRound s.lanes)) := by
  induction irs generalizing s with
  | nil => rfl
  | cons ir irs ih =>
    have hval : (BitVec.ofNat 8 ir.val).toNat = ir.val := by
      rw [BitVec.toNat_ofNat, Nat.mod_eq_of_lt (by omega)]
    have hir : (BitVec.ofNat 8 ir.val).toNat < 24 := hval.trans_lt ir.isLt
    have hindex : (⟨_, hir⟩ : Fin 24) = ir := Fin.ext hval
    rw [List.map_cons, runCommands_cons (exec_round hir s), hindex, ih, List.foldl_cons, State.setLanes_lanes,
      State.setLanes_setLanes]

theorem runCommands_twentyFourRounds (s : State) :
    runCommands ((List.range 24).map fun ir => .round (BitVec.ofNat 8 ir)) s =
      .next (s.setLanes (keccakF s.lanes)) := by
  have hrounds := runCommands_rounds (List.finRange 24) s
  rw [← List.map_coe_finRange_eq_range, List.map_map, keccakF]
  exact hrounds

theorem lt_of_roundOperandLegal {ir : BitVec 8} (h : roundOperandLegal ir = true) : ir.toNat < 24 := by
  simp only [roundOperandLegal, decide_eq_true_eq] at h
  omega

/-- A command of the family with a legal operand is a function of the lanes (R110). -/
theorem exec_permutationFamily {i : Instr} (hi : permutationFamily i) (hwf : WellFormed i = true) :
    ∃ f : Lanes → Lanes, ∀ s, exec i s = .next (s.setLanes (f s.lanes)) := by
  obtain rfl | rfl | rfl | ⟨ir, rfl⟩ | ⟨ir, rfl⟩ | rfl := hi
  · exact ⟨theta, exec_theta⟩
  · exact ⟨rhopi, exec_rhopi⟩
  · exact ⟨chi, exec_chi⟩
  · exact ⟨fun a => iota a _, exec_iota (lt_of_roundOperandLegal hwf)⟩
  · exact ⟨fun a => keccakRound a _, exec_round (lt_of_roundOperandLegal hwf)⟩
  · exact ⟨keccakF, exec_keccakf⟩

end Sys2Proof.Machine
end

section
/-! The statements of the permutation family (spec/40_permutation.md): what each step does and leaves, the corner cases,
and the rounds. -/

namespace Sys2Proof.Machine

/-- Settles O9: constant lanes have mask 0 when a rotation keeps them, and a single lane has a mask in two columns. -/
theorem thetaCornerCases : Obligations.ThetaCornerCases := by
  refine ⟨fun s h => ?zeros, fun s h => ?ones, fun s x0 y0 v h => ⟨_, exec_theta s, fun x y => ?single⟩⟩
  case zeros => rw [exec_theta, theta_of_const (rotl64_zero 1) h, State.setLanes_self]
  case ones => rw [exec_theta, theta_of_const (rotl64_ones 1) h, State.setLanes_self]
  case single =>
    have hright : ∀ x0 : Fin 5, x0 ≠ x0 + 1 := by decide
    have hleft : ∀ x0 : Fin 5, x0 ≠ x0 + 4 := by decide
    rw [State.setLanes_lanes, laneAt_theta, columnMask_of_single h, h, rotl64_eq_rotateLeft]
    by_cases hx : x = x0
    · subst hx
      simp [hright, hleft]
    · simp [hx]

/-- Settles O10: the writing form of rhopi, and the printed table is that form word by word. -/
theorem rhopiRotatesAndMoves : Obligations.RhopiRotatesAndMoves := by
  have hmove : ∀ (a : Lanes) (x y : Fin 5),
      laneAt (rhopi a) y (2 * x + 3 * y) = (laneAt a x y).rotateLeft (ROT x y).val :=
    fun a x y => (laneAt_rhopi_destination a x y).trans (rotl64_eq_rotateLeft _ _)
  refine ⟨fun a x y => (laneAt_rho a x y).trans (rotl64_eq_rotateLeft _ _), fun _ => rfl,
    fun s => ⟨_, exec_rhopi s, rfl, hmove s.lanes, fun w n W hrow => ?table⟩⟩
  obtain ⟨x, y, rfl, rfl, rfl⟩ := printedRhopi_row hrow
  rw [getElem?_wordIndex, getElem?_wordIndex, State.setLanes_lanes, hmove, Option.map_some]

/-- Settles O11: rhopi rotates lanes and moves them; the offset of lane `(0,0)` is 0 and pi fixes it. -/
theorem rhopiCornerCases : Obligations.RhopiCornerCases := by
  refine ⟨fun s h => ?zeros, fun s h => ?ones,
    fun s => ⟨_, exec_rhopi s, laneAt_rhopi s.lanes 0 0, stateOnes_rhopi s.lanes⟩⟩
  case zeros => rw [exec_rhopi, rhopi_of_const rotl64_zero h, State.setLanes_self]
  case ones => rw [exec_rhopi, rhopi_of_const rotl64_ones h, State.setLanes_self]

/-- Settles O12: pi applied `k` times reads the coordinate that `piSource` reaches in `k` steps. -/
theorem piIsOneCycleOfTwentyFour : Obligations.PiIsOneCycleOfTwentyFour := by
  refine ⟨fun a x y => ?writing, laneAt_pi, fun a => laneAt_pi a 0 0, fun a => lanes_ext fun x y => ?identity,
    fun k hpos hlt x y hxy => ?cycle⟩
  case writing => rw [laneAt_pi, sourceColumn_destination]
  case identity => rw [laneAt_pi_iterate, piSource_iterate_twentyFour]
  case cycle =>
    have hmoved := piSource_iterate_ne ⟨k, hlt⟩ hpos (x, y) fun e => hxy (Prod.mk.inj e)
    obtain ⟨a, ha⟩ := exists_lane_ne_of_ne hmoved
    exact ⟨a, by rwa [laneAt_pi_iterate]⟩

/-- Settles O14: in a row with one non-zero lane, `A[x+2]` passes through the zero at `A[x+1]` to the lane two to its
left. -/
theorem chiCornerCases : Obligations.ChiCornerCases := by
  refine ⟨fun s h => ?zeros, fun s h => ?ones, fun s x0 y v h => ⟨_, exec_chi s, fun x => ?single⟩⟩
  case zeros => rw [exec_chi, chi_of_const h, State.setLanes_self]
  case ones => rw [exec_chi, chi_of_const h, State.setLanes_self]
  case single => rw [State.setLanes_lanes, laneAt_chi_of_single_in_row h]

/-- Settles O16: XOR with the same constant cancels, and equal constants have the same effect. -/
theorem iotaCornerCases : Obligations.IotaCornerCases := by
  obtain ⟨-, -, -, -, hRC6, hRC5, -, -⟩ := constantTablesAsPrinted
  refine ⟨fun s ir hir => ?twice,
    fun s => ⟨exec_iota_congr (by decide) (by decide) hRC5 s, exec_iota_congr (by decide) (by decide) hRC6 s⟩⟩
  rw [runCommands_cons (exec_iota hir s), runCommands_cons (exec_iota hir _), runCommands_nil, State.setLanes_lanes,
    iota_iota_self, State.setLanes_setLanes, State.setLanes_self]

/-- Settles O17: the four commands compose to `keccakRound`, which ROUND writes. -/
theorem roundIsItsFourSteps : Obligations.RoundIsItsFourSteps := by
  refine ⟨fun s ir hir => ⟨_, exec_round hir s, rfl, runCommands_roundSteps hir s, fun h x y c hc => ?zeros⟩,
    fun s _ hir => exec_round_refused hir s⟩
  rw [State.setLanes_lanes, laneAt_keccakRound_of_zero h, roundConstant_of_printed hc hir]

/-- Settles O18: the 24 ROUND commands fold their rounds over the lanes, which is `keccakF`. -/
theorem keccakfIsTwentyFourRounds : Obligations.KeccakfIsTwentyFourRounds :=
  fun s => ⟨_, exec_keccakf s, rfl, runCommands_twentyFourRounds s⟩

/-- Settles O19: a command of the family is a function of the lanes. -/
theorem permutationFamilyIsAFunctionOfTheLanes : Obligations.PermutationFamilyIsAFunctionOfTheLanes := by
  intro i hi hwf s
  obtain ⟨f, hf⟩ := exec_permutationFamily hi hwf
  refine ⟨_, hf s, rfl, fun s' hlanes => ?_⟩
  rw [hf s', hlanes]
  rfl

/-- Settles O8: `columnMask` with its parities written out. -/
theorem thetaXorsColumnMasks : Obligations.ThetaXorsColumnMasks := by
  refine fun s => ⟨_, exec_theta s, rfl, fun x y => ?_⟩
  rw [State.setLanes_lanes, laneAt_theta, columnMask, rotl64_eq_rotateLeft]
  rfl

/-- Settles O13: the complement is the XOR with all ones. -/
theorem chiCombinesRows : Obligations.ChiCombinesRows := by
  refine fun s => ⟨_, exec_chi s, rfl, fun x y => ?_⟩
  rw [State.setLanes_lanes, laneAt_chi, ← BitVec.xor_allOnes]
  rfl

/-- Settles O15: the constant of the model's table is the printed one. -/
theorem iotaXorsTheRoundConstant : Obligations.IotaXorsTheRoundConstant := by
  refine ⟨fun s ir hir => ⟨_, exec_iota hir s, rfl, fun c hc => ?constant, fun x y hxy => ?others⟩,
    fun s _ hir => exec_iota_refused hir s⟩
  case constant =>
    rw [State.setLanes_lanes, laneAt_iota, if_pos ⟨rfl, rfl⟩, roundConstant_of_printed hc hir]
  case others => rw [State.setLanes_lanes, laneAt_iota, if_neg hxy]

end Sys2Proof.Machine
end

section
/-! Facts about the padding and the build's bound that later proofs share: the padded length in bits and in bytes, the
padding bytes, and the refusal of PAD and HASH. -/

namespace Sys2Proof.Machine

open Spec

/-! ### The length of the padding -/

/-- A remainder of a division by 1088 is below 1088 (R143). -/
theorem rate_sub_mod_ne_zero (n : Nat) : 1088 - 8 * n % 1088 ≠ 0 := by omega

/-- The guard of R141 keeps what its first line gives (R143). -/
theorem padRemaining_eq (n : Nat) : padRemaining n = 1088 - 8 * n % 1088 := if_neg (rate_sub_mod_ne_zero n)

/-- The padding is a whole number of bytes: the ceiling of R141 never rounds (R142). -/
theorem padRemaining_eq_mul_padLen (n : Nat) : padRemaining n = 8 * padLen n := by
  rw [padRemaining_eq, padLen_eq]
  omega

/-- The padded message ends one block after the last full block of the message (R142). -/
theorem length_pad_eq_blocks (m : ByteSpace) : (pad m).length = 136 * (m.length / 136 + 1) := by
  rw [length_pad, padLen_eq]
  omega

theorem nblocks_pad (m : ByteSpace) : nblocks (pad m) = m.length / 136 + 1 := by
  rw [nblocks, length_pad_eq_blocks, Nat.mul_div_cancel_left _ (by decide)]

/-! ### The padding bytes -/

theorem modify_replicate_succ {α : Type} (f : α → α) (a : α) (k : Nat) :
    (List.replicate (k + 1) a).modify k f = List.replicate k a ++ [f a] := by
  induction k with
  | zero => rfl
  | succ k ih => rw [List.replicate_succ, List.modify_succ_cons, ih, List.replicate_succ, List.cons_append]

/-- With one byte of padding both constants land in it (R144). -/
theorem padBytes_of_padLen_one {n : Nat} (h : padLen n = 1) : padBytes n = [0x86] := by
  rw [padBytes, h]
  rfl

/-- With two or more bytes the first is the suffix byte and the last the final bit (R144). -/
theorem padBytes_of_padLen_add_two {n k : Nat} (h : padLen n = k + 2) :
    padBytes n = [0x06] ++ List.replicate k 0x00 ++ [0x80] := by
  rw [padBytes, h, List.replicate_succ, List.set_cons_zero, Nat.add_sub_assoc (by decide), List.modify_succ_cons,
    modify_replicate_succ]
  rfl

/-- The bytes R141 builds are those of the table of R144. -/
theorem padBytes_eq_printedPadding (n : Nat) : padBytes n = printedPadding n := by
  unfold printedPadding
  have hlen := padLen_eq n
  split
  · exact padBytes_of_padLen_one (by omega)
  · exact padBytes_of_padLen_add_two (by omega)

theorem pad_eq_append_printedPadding (m : ByteSpace) : pad m = m ++ printedPadding m.length := by
  rw [pad, padBytes_eq_printedPadding]

/-- Padding a message leaves its own bytes where they are (R141). -/
theorem byteAt_pad_of_lt {m : ByteSpace} {a : Nat} (h : a < m.length) : byteAt (pad m) a = byteAt m a :=
  List.getElem?_append_left h

/-! ### The build's bound -/

theorem exec_refused_of_messageTooLong {i : Instr} (hi : i = .pad ∨ i = .hash) {s : State}
    (h : messageTooLong s = true) : exec i s = .refused .tooLong := by
  obtain rfl | rfl := hi
  · exact exec_pad_refused h
  · exact exec_hash_refused h

theorem exec_completes_of_accepted {i : Instr} (hi : i = .pad ∨ i = .hash) {s : State}
    (h : messageTooLong s = false) : ∃ t, exec i s = .next t := by
  obtain rfl | rfl := hi
  · exact ⟨_, exec_pad h⟩
  · exact ⟨_, exec_hash h⟩

/-- `messageTooLong` alone decides how `PAD` and `HASH` end (R140, R170). -/
theorem exec_refused_and_completes_iff {i : Instr} (hi : i = .pad ∨ i = .hash) (s : State) :
    (exec i s = .refused .tooLong ↔ messageTooLong s = true) ∧
      ((∃ t, exec i s = .next t) ↔ messageTooLong s = false) := by
  cases hm : messageTooLong s with
  | true => simp [exec_refused_of_messageTooLong hi hm]
  | false =>
    obtain ⟨t, ht⟩ := exec_completes_of_accepted hi hm
    simp [ht]

end Sys2Proof.Machine
end

section
/-! The statements of the padding family (spec/41_padding.md): the padded length, the padding bytes, PAD, the build's bound
and the guard that never fires. -/

namespace Sys2Proof.Machine

/-- Settles O21: the byte form of the padding length, and the length and the blocks of the padded message by it. -/
theorem paddedLengthInBytes : Obligations.PaddedLengthInBytes := by
  intro m
  have hbits := padRemaining_eq_mul_padLen m.length
  have hbytes := padLen_eq m.length
  have hblocks := nblocks_pad m
  exact ⟨by omega, hbits, hbytes, by omega, by omega, length_pad m, length_pad_eq_blocks m, hblocks, by omega⟩

/-- Settles O22: the table gives the bytes that R141 builds, and the quoted lengths are one and two blocks. -/
theorem paddingBytesByResidue : Obligations.PaddingBytesByResidue := by
  refine ⟨fun n => ⟨padBytes_eq_printedPadding n, ?padLen⟩, fun m => ⟨pad_eq_append_printedPadding m, ?quoted⟩⟩
  case padLen => rw [← padBytes_eq_printedPadding, length_padBytes]
  case quoted =>
    have hlength : ∀ n, m.length = n → (pad m).length = 136 * (n / 136 + 1) := fun n h => h ▸ length_pad_eq_blocks m
    exact ⟨hlength 135, hlength 136, hlength 137⟩

/-- Settles O23: PAD writes the padding of an accepted message, which begins with the message; it is idempotent. -/
theorem padBuildsThePaddedMessage : Obligations.PadBuildsThePaddedMessage := by
  intro s hlen
  have hexec := exec_pad ((messageTooLong_eq_false_iff s).mpr hlen)
  refine ⟨_, hexec, ?state, fun a ha => byteAt_pad_of_lt ha,
    initPadSqueezeAreIdempotent .pad (.inr (.inl rfl)) s _ hexec⟩
  case state =>
    rw [← pad_eq_append_printedPadding]
    rfl

/-- Settles O24: the test of the bound alone decides how PAD and HASH end. -/
theorem tooLongExactlyAboveTheBound : Obligations.TooLongExactlyAboveTheBound := by
  intro s i hi
  obtain ⟨hrefused, hcompletes⟩ := exec_refused_and_completes_iff hi s
  exact ⟨hrefused.trans (messageTooLong_iff s), hcompletes.trans (messageTooLong_eq_false_iff s)⟩

/-- Settles O20: what the first line gives is at least 1, so the guard keeps it. -/
theorem paddingGuardNeverFires : Obligations.PaddingGuardNeverFires :=
  fun n => ⟨rate_sub_mod_ne_zero n, padRemaining_eq n⟩

end Sys2Proof.Machine
end

section
/-! Facts about the sponge that later proofs share: a block lane by lane, the bytes of a lane, ABSORB as a run of
ABSORBBLKs, and the state from which HASH absorbs. -/

namespace Sys2Proof.Machine

/-! ### Lanes by their bytes -/

/-- Lanes whose bits agree byte by byte are equal. -/
theorem lane_ext {u v : Lane} (h : ∀ k i : Fin 8, u.getLsbD (8 * k.val + i.val) = v.getLsbD (8 * k.val + i.val)) :
    u = v := by
  apply BitVec.eq_of_getLsbD_eq
  intro n hn
  have hbit := h ⟨n / 8, by omega⟩ ⟨n % 8, by omega⟩
  rwa [Nat.div_add_mod] at hbit

/-- Byte `k` of a little-endian number has its bits from bit `8k` on (R14). -/
theorem testBit_leNat {bs : List Byte} {k : Nat} {b : Byte} (h : byteAt bs k = some b) (i : Fin 8) :
    (leNat bs).testBit (8 * k + i.val) = b.getLsbD i.val := by
  have hsplit : ∀ (c : Byte) (n m : Nat),
      (c.toNat + 256 * n).testBit m = if m < 8 then c.toNat.testBit m else n.testBit (m - 8) := by
    intro c n m
    rw [Nat.add_comm]
    exact Nat.testBit_two_pow_mul_add n c.isLt m
  induction bs generalizing k with
  | nil => cases h
  | cons c bs ih =>
    rw [leNat, hsplit]
    cases k with
    | zero =>
      obtain rfl := Option.some.inj h
      simp [BitVec.getLsbD]
    | succ k =>
      have hrest : 8 * (k + 1) + i.val - 8 = 8 * k + i.val := by omega
      rw [if_neg (by omega), hrest, ih h]

/-- A byte of a lane as a number: shift its bits down and cut at 8 (R51). -/
theorem toNat_laneByte (v : Lane) (k : Nat) : (laneByte v k).toNat = v.toNat / 2 ^ (8 * k) % 256 := by
  rw [laneByte, BitVec.extractLsb'_toNat, Nat.shiftRight_eq_div_pow]

/-! ### A block XORed into the lanes -/

/-- The bits of a rate lane are the bits that eight consecutive block bytes meet (R52). -/
theorem getLsbD_rateLane (a : Lanes) {w : Nat} (hw : w < 17) (k i : Fin 8) :
    a[w].getLsbD (8 * k.val + i.val) = blockBit a ⟨8 * w + k.val, by omega⟩ i := by
  have hword : (8 * w + k.val) / 8 = w := by omega
  have hbyte : (8 * w + k.val) % 8 = k.val := by omega
  simp only [blockBit, hword, hbyte]

/-- Rate lane `w` takes up bytes `8w .. 8w+7` of the block, least significant byte first (R151). -/
theorem xorBlock_getElem_rate {p : ByteSpace} {ib : Nat} {bk : Block} (h : blockAt p ib = some bk) (a : Lanes)
    {w : Nat} (hw : w < 17) :
    (xorBlock a bk)[w] = a[w] ^^^ BitVec.ofNat 64 (leNat ((p.drop (136 * ib + 8 * w)).take 8)) := by
  apply lane_ext
  intro k i
  have hbyte : byteAt ((p.drop (136 * ib + 8 * w)).take 8) k.val = some (bk[8 * w + k.val]'(by omega)) := by
    rw [byteAt, List.getElem?_take_of_lt k.isLt, List.getElem?_drop, Nat.add_assoc]
    exact blockAt_byte h _ (by omega)
  have hbit : 8 * k.val + i.val < 64 := by omega
  rw [BitVec.getLsbD_xor, BitVec.getLsbD_ofNat, testBit_leNat hbyte, getLsbD_rateLane _ hw, getLsbD_rateLane _ hw,
    blockBit_xorBlock]
  simp [hbit]

/-- The same block twice cancels in every rate lane; the capacity lanes are never touched (R152). -/
theorem xorBlock_xorBlock_self (a : Lanes) (bk : Block) : xorBlock (xorBlock a bk) bk = a := by
  apply Vector.ext
  intro w hw
  by_cases hrate : w < 17
  · apply lane_ext
    intro k i
    rw [getLsbD_rateLane _ hrate, getLsbD_rateLane _ hrate, blockBit_xorBlock, blockBit_xorBlock, Bool.xor_assoc,
      Bool.xor_self, Bool.xor_false]
  · have hcapacity : ∀ b : Lanes, (xorBlock b bk)[w] = b[w] :=
      fun b => xorBlock_getElem_capacity b bk ⟨w, hw⟩ (Nat.le_of_not_lt hrate)
    rw [hcapacity, hcapacity]

theorem runCommands_xorin_keccakf {s : State} {bk : Block} (h : blockAt s.p s.ib = some bk) :
    runCommands [.xorin, .keccakf] s = .next (s.setLanes (absorbBlock s.lanes bk)) := by
  rw [runCommands_cons (exec_xorin h), runCommands_cons (exec_keccakf _), runCommands_nil, State.setLanes_lanes,
    State.setLanes_setLanes, absorbBlock]

/-! ### ABSORB, one block at a time -/

/-- With no block left ABSORB changes nothing (R155). -/
theorem exec_absorb_of_ge {s : State} (h : nblocks s.p ≤ s.ib) : exec .absorb s = .next s := by
  rw [exec_absorb, absorb_of_ge h, max_eq_left h]
  rfl

/-- With a block left ABSORB does what it does after ABSORBBLK has taken that block (R155). -/
theorem exec_absorb_of_block {s : State} {bk : Block} (h : blockAt s.p s.ib = some bk) :
    exec .absorb s = exec .absorb ((s.setLanes (absorbBlock s.lanes bk)).setIb (s.ib + 1)) := by
  have hlt := lt_of_blockAt h
  have hib : max s.ib (nblocks s.p) = max (s.ib + 1) (nblocks s.p) := by omega
  rw [exec_absorb, exec_absorb, absorb_of_block h, hib]
  rfl

/-- ABSORBBLK issued once for every block left is ABSORB (R155, R156). -/
theorem runCommands_absorbblk_eq_absorb (s : State) :
    runCommands (List.replicate (nblocks s.p - s.ib) .absorbblk) s = exec .absorb s := by
  generalize hleft : nblocks s.p - s.ib = left
  induction left generalizing s with
  | zero =>
    rw [exec_absorb_of_ge (Nat.le_of_sub_eq_zero hleft)]
    rfl
  | succ left ih =>
    obtain ⟨bk, hbk⟩ := blockAt_of_lt (p := s.p) (k := s.ib) (by omega)
    have hnext : nblocks s.p - (s.ib + 1) = left := by omega
    rw [List.replicate_succ, runCommands_cons (exec_absorbblk hbk), exec_absorb_of_block hbk]
    exact ih _ hnext

/-! ### The state from which HASH absorbs -/

/-- What INIT and PAD leave together: nothing absorbed yet, all of the padded message to come (R150, R140). -/
def preparedState (s : State) : State := (((s.setLanes zeroLanes).setP (pad s.msg)).setIb 0).setZv false

@[simp] theorem preparedState_lanes (s : State) : (preparedState s).lanes = zeroLanes := rfl
@[simp] theorem preparedState_p (s : State) : (preparedState s).p = pad s.msg := rfl
@[simp] theorem preparedState_ib (s : State) : (preparedState s).ib = 0 := rfl

/-- INIT and PAD write the same `ib` and otherwise different registers, so their order does not matter (R203). -/
theorem runCommands_init_pad {s : State} (h : messageTooLong s = false) :
    runCommands [.init, .pad] s = .next (preparedState s) := by
  have hfits : messageTooLong (((s.setLanes zeroLanes).setIb 0).setZv false) = false :=
    (messageTooLong_congr rfl rfl).trans h
  rw [runCommands_cons (exec_init s), runCommands_cons (exec_pad hfits)]
  rfl

theorem runCommands_pad_init {s : State} (h : messageTooLong s = false) :
    runCommands [.pad, .init] s = .next (preparedState s) := by
  rw [runCommands_cons (exec_pad h), runCommands_cons (exec_init _)]
  rfl

/-- From the prepared state, ABSORB and SQUEEZE finish the hash (R159, R170). -/
theorem runCommands_absorb_squeeze_prepared (s : State) :
    runCommands [.absorb, .squeeze] (preparedState s) = .next (hashedState s) := by
  rw [runCommands_absorb_squeeze, preparedState_lanes, preparedState_p, preparedState_ib, Nat.zero_max]
  rfl

/-- A run of ABSORBBLKs over every block left may stand for ABSORB in front of any commands. -/
theorem runCommands_absorbblks_append (s : State) (rest : List Instr) :
    runCommands (List.replicate (nblocks s.p - s.ib) .absorbblk ++ rest) s = runCommands (.absorb :: rest) s := by
  rw [runCommands_append ((runCommands_absorbblk_eq_absorb s).trans (exec_absorb s)), runCommands_cons (exec_absorb s)]

/-- Whatever prepares the state, one ABSORBBLK per block of the padded message and SQUEEZE complete the hash (R159). -/
theorem runCommands_absorbblks_of_prepared {first : List Instr} {s : State}
    (h : runCommands first s = .next (preparedState s)) :
    runCommands (first ++ List.replicate (s.msg.length / 136 + 1) .absorbblk ++ [.squeeze]) s =
      .next (hashedState s) := by
  have hcount : nblocks (preparedState s).p - (preparedState s).ib = s.msg.length / 136 + 1 := nblocks_pad s.msg
  rw [List.append_assoc, runCommands_append h, ← hcount, runCommands_absorbblks_append,
    runCommands_absorb_squeeze_prepared]

end Sys2Proof.Machine
end

section
/-! The statements of the sponge family (spec/42_sponge.md): INIT, XORIN, ABSORBBLK, ABSORB, SQUEEZE, and HASH block by
block. -/

namespace Sys2Proof.Machine

/-- Settles O26: a rate lane takes up its eight bytes of the block, and a capacity lane none. -/
theorem xorinXorsTheBlockIntoTheRateLanes : Obligations.XorinXorsTheBlockIntoTheRateLanes := by
  refine ⟨fun s hlt => ?block, fun s => exec_xorin_refused⟩
  obtain ⟨bk, hbk⟩ := blockAt_of_lt hlt
  exact ⟨_, exec_xorin hbk, rfl, fun _ hw => xorBlock_getElem_rate hbk s.lanes hw,
    exec_xorin_keeps_capacity (exec_xorin hbk)⟩

/-- Settles O28: the second XORIN finds the same block, since the first writes lanes only, and cancels it. -/
theorem xorinTwiceRestores : Obligations.XorinTwiceRestores := by
  intro s hlt
  obtain ⟨bk, hbk⟩ := blockAt_of_lt hlt
  have hagain : blockAt (s.setLanes (xorBlock s.lanes bk)).p (s.setLanes (xorBlock s.lanes bk)).ib = some bk := hbk
  rw [runCommands_cons (exec_xorin hbk), runCommands_cons (exec_xorin hagain), runCommands_nil, State.setLanes_lanes,
    xorBlock_xorBlock_self, State.setLanes_setLanes, State.setLanes_self]

/-- Settles O29: both write the permutation of the lanes with the block in. -/
theorem absorbblkIsXorinThenKeccakf : Obligations.AbsorbblkIsXorinThenKeccakf := by
  refine ⟨fun s hlt => ?block, fun s => exec_absorbblk_refused⟩
  obtain ⟨bk, hbk⟩ := blockAt_of_lt hlt
  exact ⟨_, runCommands_xorin_keccakf hbk, rfl, exec_absorbblk hbk⟩

/-- Settles O30: ABSORB takes its blocks one at a time, as ABSORBBLK does. -/
theorem absorbIsAbsorbblkForEveryBlockLeft : Obligations.AbsorbIsAbsorbblkForEveryBlockLeft := by
  refine fun s => ⟨_, exec_absorb s, rfl, runCommands_absorbblk_eq_absorb s, fun hge => ?noBlock⟩
  exact Host.Outcome.next.inj ((exec_absorb s).symm.trans (exec_absorb_of_ge hge))

/-- Settles O31: digest byte `8w + k` is byte `k` of lane `w`. -/
theorem squeezeReadsFourLanes : Obligations.SqueezeReadsFourLanes := by
  refine fun s => ⟨_, exec_squeeze s, rfl, fun w k => ?byte⟩
  have hword : (8 * w.val + k.val) / 8 = w.val := by omega
  have hbyte : (8 * w.val + k.val) % 8 = k.val := by omega
  simp only [State.setZv_z, State.setZ_z, squeeze_getElem, hword, hbyte, toNat_laneByte]

/-- Settles O36: INIT and PAD prepare the same state in either order, and the padded message has `LEN div 136 + 1`
blocks. -/
theorem hashIsOneAbsorbblkPerBlock : Obligations.HashIsOneAbsorbblkPerBlock := by
  intro s hlen
  have hfits := (messageTooLong_eq_false_iff s).mpr hlen
  rw [exec_hash hfits]
  exact ⟨runCommands_absorbblks_of_prepared (runCommands_init_pad hfits),
    runCommands_absorbblks_of_prepared (runCommands_pad_init hfits)⟩

/-- Settles O25: INIT writes zero lanes. -/
theorem initClearsLanesPointerAndFlag : Obligations.InitClearsLanesPointerAndFlag :=
  fun s => ⟨_, exec_init s, rfl, laneAt_zeroLanes⟩

end Sys2Proof.Machine
end

section
/-! The statements of the hash family (spec/43_hash.md): HASH as a sequence of commands, and HASH twice. -/

namespace Sys2Proof.Machine

/-- INIT and PAD prepare the state from which ABSORB and SQUEEZE leave that of HASH (R170). -/
theorem runCommands_init_pad_absorb_squeeze {s : State} (h : messageTooLong s = false) :
    runCommands [.init, .pad, .absorb, .squeeze] s = .next (hashedState s) :=
  (runCommands_append (runCommands_init_pad h) _).trans (runCommands_absorb_squeeze_prepared s)

/-- What HASH leaves is fixed by the message and by the fields HASH does not write, and HASH keeps all of these. -/
theorem hashedState_hashedState (s : State) : hashedState (hashedState s) = hashedState s := rfl

/-- Settles O35: HASH and the four commands leave `hashedState`, whose buffer and block pointer are those of the padded
message. -/
theorem hashIsInitPadAbsorbSqueeze : Obligations.HashIsInitPadAbsorbSqueeze := by
  intro s hlen
  have hfits := (messageTooLong_eq_false_iff s).mpr hlen
  refine ⟨hashedState s, exec_hash hfits, runCommands_init_pad_absorb_squeeze hfits, ?state⟩
  case state =>
    rw [← pad_eq_append_printedPadding, ← nblocks_pad]
    rfl

/-- Settles O38: HASH keeps the message and the bound, so the second HASH is accepted too and leaves what the first did. -/
theorem hashTwiceIsHashOnce : Obligations.HashTwiceIsHashOnce := by
  intro s t h
  obtain ⟨hfits, rfl⟩ := exec_hash_next h
  have hfits' : messageTooLong (hashedState s) = false :=
    (messageTooLong_congr (hashedState_msg s) (hashedState_maxMsg s)).trans hfits
  rw [exec_hash hfits', hashedState_hashedState]

end Sys2Proof.Machine
end

section
/-! Refusals and faults (spec/60_exceptions.md): when a command is refused and why, and how a step ends
that does not answer a next state. -/

namespace Sys2Proof.Machine

/-! ### When a command is refused -/

/-- The rows of the table of reasons (R181, R184) that meet a decoded command, and the operand no word
decodes to (R87). -/
def CommandRefusal (i : Instr) (s : State) (r : Refusal) : Prop :=
  (WellFormed i = false ∧ r = .operandRange) ∨
  ((i = .xorin ∨ i = .absorbblk) ∧ nblocks s.p ≤ s.ib ∧ r = .noBlock) ∨
  ((i = .pad ∨ i = .hash) ∧ messageTooLong s = true ∧ r = .tooLong)

theorem le_of_roundOperandLegal_eq_false {ir : BitVec 8} (h : roundOperandLegal ir = false) : 24 ≤ ir.toNat := by
  simp only [roundOperandLegal, decide_eq_false_iff_not] at h
  omega

theorem exec_refused_of_not_wellFormed {i : Instr} (h : WellFormed i = false) (s : State) :
    exec i s = .refused .operandRange := by
  cases i with
  | iota ir => exact exec_iota_refused (le_of_roundOperandLegal_eq_false h) s
  | round ir => exact exec_round_refused (le_of_roundOperandLegal_eq_false h) s
  | _ => cases h

theorem exec_refused_of_commandRefusal {i : Instr} {s : State} {r : Refusal} (h : CommandRefusal i s r) :
    exec i s = .refused r := by
  obtain ⟨hwf, rfl⟩ | ⟨rfl | rfl, hblock, rfl⟩ | ⟨hi, hlong, rfl⟩ := h
  · exact exec_refused_of_not_wellFormed hwf s
  · exact exec_xorin_refused hblock
  · exact exec_absorbblk_refused hblock
  · exact exec_refused_of_messageTooLong hi hlong

/-- A legal operand, the block there for the two commands that take one, the message accepted for the two that pad it:
the command completes. -/
theorem exec_completes {i : Instr} {s : State} (hwf : WellFormed i = true)
    (hblock : i = .xorin ∨ i = .absorbblk → s.ib < nblocks s.p)
    (hfits : i = .pad ∨ i = .hash → messageTooLong s = false) : ∃ t, exec i s = .next t := by
  cases i with
  | theta | rhopi | chi | keccakf | init | absorb | squeeze => exact ⟨_, rfl⟩
  | iota ir => exact ⟨_, exec_iota (lt_of_roundOperandLegal hwf) s⟩
  | round ir => exact ⟨_, exec_round (lt_of_roundOperandLegal hwf) s⟩
  | pad => exact exec_completes_of_accepted (.inl rfl) (hfits (.inl rfl))
  | hash => exact exec_completes_of_accepted (.inr rfl) (hfits (.inr rfl))
  | xorin =>
    obtain ⟨bk, hbk⟩ := blockAt_of_lt (hblock (.inl rfl))
    exact ⟨_, exec_xorin hbk⟩
  | absorbblk =>
    obtain ⟨bk, hbk⟩ := blockAt_of_lt (hblock (.inr rfl))
    exact ⟨_, exec_absorbblk hbk⟩

/-- A command completes, or a row of the table holds of it. -/
theorem exec_completes_or_commandRefusal (i : Instr) (s : State) :
    (∃ t, exec i s = .next t) ∨ ∃ r, CommandRefusal i s r := by
  by_cases hrow : ∃ r, CommandRefusal i s r
  · exact .inr hrow
  · refine .inl (exec_completes ?operand (fun hi => ?block) (fun hi => ?message))
    case operand => exact (Bool.eq_false_or_eq_true _).resolve_right fun h => hrow ⟨_, .inl ⟨h, rfl⟩⟩
    case block => exact Nat.lt_of_not_le fun h => hrow ⟨_, .inr (.inl ⟨hi, h, rfl⟩)⟩
    case message => exact (Bool.eq_false_or_eq_true _).resolve_left fun h => hrow ⟨_, .inr (.inr ⟨hi, h, rfl⟩)⟩

theorem exec_refused_iff {i : Instr} {s : State} {r : Refusal} : exec i s = .refused r ↔ CommandRefusal i s r := by
  refine ⟨fun h => ?_, exec_refused_of_commandRefusal⟩
  obtain ⟨t, hnext⟩ | ⟨r', hrow⟩ := exec_completes_or_commandRefusal i s
  · cases hnext.symm.trans h
  · cases (exec_refused_of_commandRefusal hrow).symm.trans h
    exact hrow

theorem exec_ne_fault (i : Instr) (s : State) (f : Fault) : exec i s ≠ .fault f := by
  intro h
  obtain ⟨t, hnext⟩ | ⟨r, hrow⟩ := exec_completes_or_commandRefusal i s
  · cases hnext.symm.trans h
  · cases (exec_refused_of_commandRefusal hrow).symm.trans h

/-! ### Command words -/

theorem issue_ne_fault (w : CmdWord) (s : State) (f : Fault) : issue w s ≠ .fault f := by
  cases hd : decode w with
  | ok i =>
    rw [issue_of_decode hd]
    exact exec_ne_fault i s f
  | error e =>
    rw [issue_of_decode_error hd]
    exact nofun

/-- A word is refused because it spells no command, or because the well-formed command it spells is refused. -/
theorem issue_refused_iff {w : CmdWord} {s : State} {r : Refusal} :
    issue w s = .refused r ↔
      (∃ e, decode w = .error e ∧ r = decodeRefusal e) ∨ (∃ i, decode w = .ok i ∧ CommandRefusal i s r) := by
  cases hd : decode w with
  | ok i => simp [issue_of_decode hd, exec_refused_iff]
  | error e => simp [issue_of_decode_error hd, eq_comm]

theorem decode_ok_or_iff {w : CmdWord} {i j : Instr} :
    decode w = .ok i ∨ decode w = .ok j ↔ ∃ k, decode w = .ok k ∧ (k = i ∨ k = j) := by
  simp [and_or_left, exists_or]

/-! ### The host's moves and the step -/

/-- Only a command word is refused (R181). -/
theorem command_of_perform_refused {act : HostAct} {s : State} {r : Refusal} (h : perform act s = .refused r) :
    ∃ w, act = .command w ∧ issue w s = .refused r := by
  cases act with
  | command w => exact ⟨w, rfl, h⟩
  | writeMessage m => cases h
  | readDigest =>
    cases hzv : s.zv with
    | true => cases (readDigest_of_valid hzv).symm.trans h
    | false => cases (readDigest_of_invalid hzv).symm.trans h
  | reset m d => cases h

/-- Only the read of an invalid digest faults (R180, R198). -/
theorem readDigest_of_perform_fault {act : HostAct} {s : State} {f : Fault} (h : perform act s = .fault f) :
    act = .readDigest ∧ s.zv = false := by
  cases act with
  | command w => exact absurd h (issue_ne_fault w s f)
  | writeMessage m => cases h
  | readDigest =>
    cases hzv : s.zv with
    | true => cases (readDigest_of_valid hzv).symm.trans h
    | false => exact ⟨rfl, rfl⟩
  | reset m d => cases h

theorem step_refused_iff {s : State} {r : Refusal} :
    step s = .refused r ↔ ∃ w rest, s.host = .command w :: rest ∧ issue w (s.setHost rest) = .refused r := by
  constructor
  · intro h
    obtain ⟨-, hwait⟩ | ⟨act, rest, hhost, hmove⟩ := step_cases s
    · cases hwait.symm.trans h
    · obtain ⟨w, rfl, hissue⟩ := command_of_perform_refused (hmove.symm.trans h)
      exact ⟨w, rest, hhost, hissue⟩
  · rintro ⟨w, rest, hhost, hissue⟩
    exact (step_of_move hhost).trans hissue

theorem readDigest_of_step_fault {s : State} {f : Fault} (h : step s = .fault f) :
    s.zv = false ∧ ∃ rest, s.host = .readDigest :: rest := by
  obtain ⟨-, hwait⟩ | ⟨act, rest, hhost, hmove⟩ := step_cases s
  · cases hwait.symm.trans h
  · obtain ⟨rfl, hzv⟩ := readDigest_of_perform_fault (hmove.symm.trans h)
    exact ⟨hzv, rest, hhost⟩

theorem step_readDigest_fault {s : State} {rest : List HostAct} (h : s.host = .readDigest :: rest)
    (hzv : s.zv = false) : step s = .fault .digestNotValid :=
  (step_of_move h).trans (readDigest_of_invalid hzv)

theorem afterRefusal_of_move {s : State} {act : HostAct} {rest : List HostAct} (h : s.host = act :: rest) :
    afterRefusal s = s.setHost rest := by
  rw [afterRefusal, h, List.tail_cons]

end Sys2Proof.Machine
end

section
/-! The statements of the exceptions family (spec/60_exceptions.md): no command faults, the table of refusals, the
engine after a refusal, and the read of the digest. -/

namespace Sys2Proof.Machine

/-- Settles O42: a command completes or is refused, and a word that spells no command is refused. -/
theorem noCommandFaults : Obligations.NoCommandFaults := ⟨exec_ne_fault, issue_ne_fault⟩

/-- Settles O43: the refused word spells no command, or a row holds of the command it spells; that command is well-formed,
so the row of the operand is not among them. -/
theorem stepRefusesExactlyAsTheTableSays : Obligations.StepRefusesExactlyAsTheTableSays := by
  intro s r
  rw [step_refused_iff]
  refine exists_congr fun w => exists_congr fun rest => and_congr_right fun _ => ?_
  rw [issue_refused_iff]
  refine ⟨?refused, ?table⟩
  case refused =>
    rintro (⟨e, hd, rfl⟩ | ⟨i, hd, ⟨hwf, -⟩ | ⟨hi, hblock, rfl⟩ | ⟨hi, hlong, rfl⟩⟩)
    · cases e with
      | illegalCommand => exact .inl ⟨hd, rfl⟩
      | operandRange => exact .inr (.inl ⟨hd, rfl⟩)
    · obtain ⟨hlegal, -⟩ := wellFormed_and_encode_of_decode hd
      cases hlegal.symm.trans hwf
    · exact .inr (.inr (.inl ⟨decode_ok_or_iff.mpr ⟨i, hd, hi⟩, hblock, rfl⟩))
    · exact .inr (.inr (.inr ⟨decode_ok_or_iff.mpr ⟨i, hd, hi⟩, (messageTooLong_iff _).mp hlong, rfl⟩))
  case table =>
    rintro (⟨hd, rfl⟩ | ⟨hd, rfl⟩ | ⟨hd, hblock, rfl⟩ | ⟨hd, hlong, rfl⟩)
    · exact .inl ⟨_, hd, rfl⟩
    · exact .inl ⟨_, hd, rfl⟩
    · obtain ⟨i, hd, hi⟩ := decode_ok_or_iff.mp hd
      exact .inr ⟨i, hd, .inr (.inl ⟨hi, hblock, rfl⟩)⟩
    · obtain ⟨i, hd, hi⟩ := decode_ok_or_iff.mp hd
      exact .inr ⟨i, hd, .inr (.inr ⟨hi, (messageTooLong_iff _).mpr hlong, rfl⟩)⟩

/-- Settles O47: the read answers by `ZV`, and no other move faults. -/
theorem onlyAnInvalidDigestReadFaults : Obligations.OnlyAnInvalidDigestReadFaults :=
  ⟨fun _ _ hhost => ⟨step_readDigest_fault hhost, step_readDigest hhost⟩, fun _ _ => readDigest_of_step_fault⟩

/-- Settles O45: what is refused is a command word at the head of the host's moves, and `afterRefusal` takes it off. -/
theorem afterARefusalTheEngineGoesOn : Obligations.AfterARefusalTheEngineGoesOn := by
  intro s r h
  obtain ⟨w, rest, hhost, -⟩ := step_refused_iff.mp h
  have hafter : afterRefusal s = s.setHost rest := afterRefusal_of_move hhost
  refine ⟨w, rest, hhost, hafter, fun act rest' hrest => ?next⟩
  case next =>
    rw [hafter]
    exact step_of_move hrest

end Sys2Proof.Machine
end

section
/-! The statements of the reset family (spec/70_reset_and_hazards.md): what a hardware reset leaves, and an engine that
waits for the host. -/

namespace Sys2Proof.Machine

theorem step_of_no_move {s : State} (h : s.host = []) : step s = .next s := by
  obtain ⟨-, hwait⟩ | ⟨act, rest, hcons, -⟩ := step_cases s
  · exact hwait
  · cases h.symm.trans hcons

/-- A reset move writes every part of the hardware's state; the build's bound and the digest the host has read stay. -/
theorem step_reset {s : State} {m : ByteSpace} {d : Digest} {rest : List HostAct} (h : s.host = .reset m d :: rest) :
    step s = .next
      (((((((s.setHost rest).setLanes zeroLanes).setMsg m).setP []).setIb 0).setZ d).setZv false) :=
  step_of_move h

/-- Settles O50: waiting is the first of the two cases of a step. -/
theorem engineWaitsForACommand : Obligations.EngineWaitsForACommand := fun _ => step_of_no_move

/-- Settles O49: the reset move by the state it leaves, field by field; `State.reset` has no move of the host, so it waits,
and its `ZV = 0` makes a read fault. -/
theorem resetLeavesTheResetValues : Obligations.ResetLeavesTheResetValues := by
  refine ⟨fun s m d rest hhost => ?move, laneAt_zeroLanes, rfl, rfl, rfl, step_of_no_move rfl,
    step_readDigest_fault rfl rfl⟩
  case move =>
    exact ⟨_, step_reset hhost, laneAt_zeroLanes, rfl, nblocks_nil, rfl, rfl, rfl, rfl, rfl, rfl, rfl⟩

end Sys2Proof.Machine
end
